-- ==== Sys2Proof/Word.lean ====
section
/-! DEFINITION. The widths of the machine (spec/00_scope.md R5, R8): bytes, words, and the index of a general register. -/

namespace Sys2Proof

/-- An 8-bit value: a general register, a timer, a memory byte (R5 `REG_WIDTH`, `TIMER_WIDTH`). -/
abbrev Byte := BitVec 8

/-- A 16-bit value: `I`, `pc`, a stack entry, an instruction word (R5 `I_WIDTH`, `PC_WIDTH`, `STACK_WIDTH`). -/
abbrev Word := BitVec 16

/-- A 4-bit field of an instruction word used as a number (`n` of `DXYN`) or as a function code (R72). -/
abbrev Nibble := BitVec 4

/-- The 12-bit field `addr` of an instruction word (R72). -/
abbrev Addr := BitVec 12

/-- The index of a general register, 0..15 (R23: "register indices always in 0..16", upper bound excluded). -/
abbrev RegIdx := Fin 16

/-- VF, the register that doubles as the flag (R24). -/
abbrev vf : RegIdx := 15

/-- `MEM_SIZE`: 4096 bytes of memory, addresses 0x000 to 0xFFF (R5). -/
abbrev memSize : Nat := 4096

/-- `LOAD_BASE`: address of the first program byte and reset value of pc (R5). -/
abbrev loadBase : Nat := 0x200

/-- `MAX_PROGRAM`: longest program the load interface defines, 4096 − 0x200 bytes (R5). -/
abbrev maxProgram : Nat := 3584

/-- `STACK_DEPTH`: entries of the return stack; sp takes the values 0..16 (R5, R28). -/
abbrev stackDepth : Nat := 16

/-- `FB_W`, `FB_H`, `FB_CELLS`: the display in pixels and in cells (R5). -/
abbrev fbWidth : Nat := 64
abbrev fbHeight : Nat := 32
abbrev fbCells : Nat := 2048

/-- `NKEYS`: keypad flags, key codes 0x0..0xF (R5). -/
abbrev numKeys : Nat := 16

/-- The last address an instruction can be fetched from: pc and pc + 1 must both be inside memory (R54, R94). -/
abbrev lastFetch : Nat := 0xFFE

end Sys2Proof
end

