-- ==== Sys2Proof/Syntax.lean ====
section
/-! DEFINITION. The instruction set, whole: the 29 forms of the opcode table (spec/30_encoding.md R76, R79). -/

namespace Sys2Proof

/-- One constructor per row of spec/opcode_table.json. `x`, `y` name general registers, `kk` is an immediate byte, `addr` a 12-bit
address, `n` a sprite's height (R72, R73). -/
inductive Instr where
  /-- `00E0` CLS: clear the display (R170). -/
  | cls
  /-- `00EE` RET: return from subroutine (R111). -/
  | ret
  /-- `1NNN` JP addr: jump (R114). -/
  | jp (addr : Addr)
  /-- `2NNN` CALL addr: call subroutine (R112). -/
  | call (addr : Addr)
  /-- `3XKK` SE Vx, byte: skip if equal (R115). -/
  | seImm (x : RegIdx) (kk : Byte)
  /-- `4XKK` SNE Vx, byte: skip if not equal (R116). -/
  | sneImm (x : RegIdx) (kk : Byte)
  /-- `5XY0` SE Vx, Vy: skip if registers are equal (R117). -/
  | seReg (x y : RegIdx)
  /-- `6XKK` LD Vx, byte: load immediate (R131). -/
  | ldImm (x : RegIdx) (kk : Byte)
  /-- `7XKK` ADD Vx, byte: add immediate, no flag (R132). -/
  | addImm (x : RegIdx) (kk : Byte)
  /-- `8XY0` LD Vx, Vy: copy register (R133). -/
  | ldReg (x y : RegIdx)
  /-- `8XY4` ADD Vx, Vy: add with carry flag (R134). -/
  | addReg (x y : RegIdx)
  /-- `8XY5` SUB Vx, Vy: subtract with NOT-borrow flag (R135). -/
  | sub (x y : RegIdx)
  /-- `8XY7` SUBN Vx, Vy: reverse subtract with NOT-borrow flag (R136). -/
  | subn (x y : RegIdx)
  /-- `9XY0` SNE Vx, Vy: skip if registers differ (R118). -/
  | sneReg (x y : RegIdx)
  /-- `ANNN` LD I, addr: load the address register (R150). -/
  | ldI (addr : Addr)
  /-- `BNNN` JP V0, addr: jump with offset (R113). -/
  | jpV0 (addr : Addr)
  /-- `CXKK` RND Vx, byte: masked random byte (R137). -/
  | rnd (x : RegIdx) (kk : Byte)
  /-- `DXYN` DRW Vx, Vy, nibble: draw sprite with collision detection (R172). -/
  | drw (x y : RegIdx) (n : Nibble)
  /-- `EX9E` SKP Vx: skip if the key is held (R196). -/
  | skp (x : RegIdx)
  /-- `EXA1` SKNP Vx: skip if the key is not held (R197). -/
  | sknp (x : RegIdx)
  /-- `FX07` LD Vx, DT: read the delay timer (R192). -/
  | ldVxDt (x : RegIdx)
  /-- `FX0A` LD Vx, K: wait for the next key press (R198). -/
  | ldVxK (x : RegIdx)
  /-- `FX15` LD DT, Vx: set the delay timer (R193). -/
  | ldDtVx (x : RegIdx)
  /-- `FX18` LD ST, Vx: set the sound timer (R194). -/
  | ldStVx (x : RegIdx)
  /-- `FX1E` ADD I, Vx: add to the address register (R151). -/
  | addI (x : RegIdx)
  /-- `FX29` LD F, Vx: glyph address (R152). -/
  | ldF (x : RegIdx)
  /-- `FX33` LD B, Vx: store three decimal digits (R153). -/
  | ldB (x : RegIdx)
  /-- `FX55` LD [I], Vx: store registers V0 to VX (R154). -/
  | ldMemVx (x : RegIdx)
  /-- `FX65` LD Vx, [I]: load registers V0 to VX (R155). -/
  | ldVxMem (x : RegIdx)
  deriving DecidableEq, Repr

end Sys2Proof
end

