-- ==== Sys2Proof/Decode.lean ====
section
/-! DEFINITION. The decoder, total on words and on bytes, and after it the encoder (spec/30_encoding.md R70 to R79). -/

namespace Sys2Proof

/-! ### The six fields of an instruction word (R72) -/

/-- `op`: bits 15..12. -/
def opField (w : Word) : Nibble := w.extractLsb' 12 4
/-- `x`: bits 11..8, a register index. -/
def xField (w : Word) : RegIdx := (w.extractLsb' 8 4).toFin
/-- `y`: bits 7..4, a register index. -/
def yField (w : Word) : RegIdx := (w.extractLsb' 4 4).toFin
/-- `n`: bits 3..0. -/
def nField (w : Word) : Nibble := w.extractLsb' 0 4
/-- `kk`: bits 7..0. -/
def kkField (w : Word) : Byte := w.extractLsb' 0 8
/-- `addr`: bits 11..0. -/
def addrField (w : Word) : Addr := w.extractLsb' 0 12

/-- What decoding answers: an instruction, or a rejection by name. -/
inductive Decoded where
  /-- The word is an instruction of the table. -/
  | instr (i : Instr)
  /-- The word matches no row of the table (R77). -/
  | unknown (w : Word)
  /-- Fewer than the two bytes of an instruction word were given (R70). -/
  | truncated
  deriving DecidableEq, Repr

/-- The instruction, if there is one. -/
def Decoded.instr? : Decoded → Option Instr
  | .instr i => some i
  | .unknown _ | .truncated => none

/-! ### Decoding (R79) -/

/-- The words with `op` = 0 (R79): all 16 bits are compared (R75). -/
def decode0 (w : Word) : Decoded :=
  if w = 0x00E0 then .instr .cls else if w = 0x00EE then .instr .ret else .unknown w

/-- The words with `op` = 8 (R79): the low nibble is the function code. -/
def decode8 (w : Word) : Decoded :=
  let x := xField w
  let y := yField w
  if nField w = 0x0 then .instr (.ldReg x y)
  else if nField w = 0x4 then .instr (.addReg x y)
  else if nField w = 0x5 then .instr (.sub x y)
  else if nField w = 0x7 then .instr (.subn x y)
  else .unknown w

/-- The words with `op` = E (R79): the low byte is the function code. -/
def decodeE (w : Word) : Decoded :=
  if kkField w = 0x9E then .instr (.skp (xField w))
  else if kkField w = 0xA1 then .instr (.sknp (xField w))
  else .unknown w

/-- The words with `op` = F (R79): the low byte is the function code. -/
def decodeF (w : Word) : Decoded :=
  let x := xField w
  if kkField w = 0x07 then .instr (.ldVxDt x)
  else if kkField w = 0x0A then .instr (.ldVxK x)
  else if kkField w = 0x15 then .instr (.ldDtVx x)
  else if kkField w = 0x18 then .instr (.ldStVx x)
  else if kkField w = 0x1E then .instr (.addI x)
  else if kkField w = 0x29 then .instr (.ldF x)
  else if kkField w = 0x33 then .instr (.ldB x)
  else if kkField w = 0x55 then .instr (.ldMemVx x)
  else if kkField w = 0x65 then .instr (.ldVxMem x)
  else .unknown w

/-- Decode a 16-bit word (R79): total, and every fixed nibble is compared (R75, C7). -/
def decode (w : Word) : Decoded :=
  let x := xField w
  let y := yField w
  let kk := kkField w
  let addr := addrField w
  let op := opField w
  if op = 0x0 then decode0 w
  else if op = 0x1 then .instr (.jp addr)
  else if op = 0x2 then .instr (.call addr)
  else if op = 0x3 then .instr (.seImm x kk)
  else if op = 0x4 then .instr (.sneImm x kk)
  else if op = 0x5 then (if nField w = 0 then .instr (.seReg x y) else .unknown w)
  else if op = 0x6 then .instr (.ldImm x kk)
  else if op = 0x7 then .instr (.addImm x kk)
  else if op = 0x8 then decode8 w
  else if op = 0x9 then (if nField w = 0 then .instr (.sneReg x y) else .unknown w)
  else if op = 0xA then .instr (.ldI addr)
  else if op = 0xB then .instr (.jpV0 addr)
  else if op = 0xC then .instr (.rnd x kk)
  else if op = 0xD then .instr (.drw x y (nField w))
  else if op = 0xE then decodeE w
  else decodeF w

/-- Two bytes as a word, the byte at the lower address in the high half (R50: big-endian). -/
def wordOfBytes (hi lo : Byte) : Word := hi ++ lo

/-- The high byte of a word, the one at the lower address (R50). -/
def hiByte (w : Word) : Byte := w.extractLsb' 8 8

/-- The low byte of a word, the one at the higher address (R50). -/
def loByte (w : Word) : Byte := w.extractLsb' 0 8

/-- Decode the first instruction of a list of bytes, and give back the bytes after it (R50, R70). -/
def decodeBytes : List Byte → Decoded × List Byte
  | hi :: lo :: rest => (decode (wordOfBytes hi lo), rest)
  | short => (.truncated, short)

/-! ### Encoding (R71, R72, R76) -/

/-- The bits of a register index in a word. -/
def regBits (r : RegIdx) : Nibble := BitVec.ofFin r

/-- Format `A`: `op` and a 12-bit address (R71). -/
def packAddr (op : Nibble) (addr : Addr) : Word := op ++ addr

/-- Formats `XK` and `X`: `op`, a register and a byte (R71). -/
def packByte (op : Nibble) (x : RegIdx) (kk : Byte) : Word := op ++ (regBits x ++ kk)

/-- Formats `XY` and `XYN`: `op`, two registers and a nibble (R71). -/
def packRegs (op : Nibble) (x y : RegIdx) (n : Nibble) : Word := op ++ (regBits x ++ (regBits y ++ n))

/-- The word of an instruction, from the patterns of R76. -/
def encode : Instr → Word
  | .cls => 0x00E0
  | .ret => 0x00EE
  | .jp addr => packAddr 0x1 addr
  | .call addr => packAddr 0x2 addr
  | .seImm x kk => packByte 0x3 x kk
  | .sneImm x kk => packByte 0x4 x kk
  | .seReg x y => packRegs 0x5 x y 0x0
  | .ldImm x kk => packByte 0x6 x kk
  | .addImm x kk => packByte 0x7 x kk
  | .ldReg x y => packRegs 0x8 x y 0x0
  | .addReg x y => packRegs 0x8 x y 0x4
  | .sub x y => packRegs 0x8 x y 0x5
  | .subn x y => packRegs 0x8 x y 0x7
  | .sneReg x y => packRegs 0x9 x y 0x0
  | .ldI addr => packAddr 0xA addr
  | .jpV0 addr => packAddr 0xB addr
  | .rnd x kk => packByte 0xC x kk
  | .drw x y n => packRegs 0xD x y n
  | .skp x => packByte 0xE x 0x9E
  | .sknp x => packByte 0xE x 0xA1
  | .ldVxDt x => packByte 0xF x 0x07
  | .ldVxK x => packByte 0xF x 0x0A
  | .ldDtVx x => packByte 0xF x 0x15
  | .ldStVx x => packByte 0xF x 0x18
  | .addI x => packByte 0xF x 0x1E
  | .ldF x => packByte 0xF x 0x29
  | .ldB x => packByte 0xF x 0x33
  | .ldMemVx x => packByte 0xF x 0x55
  | .ldVxMem x => packByte 0xF x 0x65

/-- The bytes of an instruction in memory order (R50). -/
def encodeBytes (i : Instr) : List Byte := [hiByte (encode i), loByte (encode i)]

/-! ### The host's question -/

/-- The word that the host's number stands for: its low `nbits` bits, at most 16 of them. -/
def tableWord (nbits w : Nat) : Word := BitVec.ofNat 16 (w % 2 ^ nbits)

/-- The instruction the decoder reads from the word `w` of the opcode table, laid out in memory order. -/
def decodeTableWord (nbits w : Nat) : Option Instr :=
  (decodeBytes [hiByte (tableWord nbits w), loByte (tableWord nbits w)]).1.instr?

end Sys2Proof
end

