-- ==== Sys2Proof/Config.lean ====
section
/-! DEFINITION. The parameters of the hardware (spec/00_scope.md R6, R7) and the one free value (R106). -/

namespace Sys2Proof

/-- `TIMER_MODE` (R6): when the two timers count down. -/
inductive TimerMode where
  /-- Once after every completed instruction (R190): the value for this hardware. -/
  | perInstruction
  /-- By the host action `Tick` only (R191). -/
  | externalTick
  deriving DecidableEq, Repr

/-- `SPRITE_WRAP` (R6): how a sprite pixel beyond an edge of the display is placed. -/
inductive SpriteWrap where
  /-- Each coordinate is wrapped by itself (R173): the value for this hardware. -/
  | perAxis
  /-- The combined linear index is wrapped (R174). -/
  | linear
  deriving DecidableEq, Repr

/-- The two parameters the spec names for a model to take as an argument (R6). -/
structure Config where
  timerMode : TimerMode
  spriteWrap : SpriteWrap
  deriving DecidableEq, Repr

/-- The values R6 fixes for this hardware. DESIGN CHOICE of the spec (D3, D4), log 4. -/
def Config.hardware : Config := ⟨.perInstruction, .perAxis⟩

/-- The random byte a host supplies with a step, as a free value: the `k`-th draw is any byte, under no law (R106, D13, U5).
It has no value in Lean; whatever is proved holds for every draw. Log 3. -/
opaque Config.freeByte : Nat → Byte

end Sys2Proof
end

