-- ==== Sys2Proof/Machine/Action.lean ====
section
/-! DEFINITION. The actions of the host on the machine (spec/40_engine.md R100), as data. -/

namespace Sys2Proof.Machine

/-- The atomic actions of R100. A key code and a program are kept as the host offers them, and checked at the interface
(`HostAction.wellFormed`). -/
inductive HostAction where
  /-- `Launch(program)`: reset, then the bytes at 0x200 onward (R252). -/
  | launch (program : List Byte)
  /-- `Step(rnd)`: one step of the core, with the random byte the host supplies (R93). -/
  | step (rnd : Byte)
  /-- `SetKey(code, pressed)`: write one keypad flag (R195). -/
  | setKey (code : Nat) (pressed : Bool)
  /-- `KeyPress(code)`: complete the key wait (R199). -/
  | keyPress (code : Nat)
  /-- `Cancel`: end the run during a key wait (R200). -/
  | cancel
  /-- `ReadFramebuffer`: take a snapshot, changing no state (R103). -/
  | readFramebuffer
  /-- `Tick`: one timer decrement, in `external_tick` mode (R191). -/
  | tick
  deriving DecidableEq, Repr

end Sys2Proof.Machine
end

