-- ==== Sys2Proof/Machine/State.lean ====
section
/-! DEFINITION. The state of the machine (spec/10_state.md R20 to R36), why a run stops, and the state after reset. -/

namespace Sys2Proof.Machine

/-- The causes of a fatal stop (spec/60_exceptions.md R221). -/
inductive Cause where
  /-- Decode: the word matches no row of the opcode table (R222). -/
  | unknownInstruction
  /-- `2NNN` with sp = 16 (R223). -/
  | stackOverflow
  /-- `00EE` with sp = 0 (R223). -/
  | stackUnderflow
  /-- `DXYN`, `FX33`, `FX55`, `FX65`: a data address above 4095 (R224). -/
  | memoryOutOfRange
  /-- Fetch with pc above 0xFFE (R224). -/
  | fetchOutOfRange
  /-- `EX9E`, `EXA1` with V[x] above 15 (R225). -/
  | keyIndexOutOfRange
  /-- The host action `Cancel` (R200). -/
  | cancelled
  deriving DecidableEq, Repr

/-- The numeric codes of R221 (the spec's own labels, D17). -/
def Cause.code : Cause → Nat
  | .unknownInstruction => 1
  | .stackOverflow => 2
  | .stackUnderflow => 3
  | .memoryOutOfRange => 4
  | .fetchOutOfRange => 5
  | .keyIndexOutOfRange => 6
  | .cancelled => 7

/-- `run_state` (R32). -/
inductive RunState where
  /-- The core can take a step. -/
  | running
  /-- `FX0A` with register field `x` is suspended until the host delivers a key press. -/
  | waitKey (x : RegIdx)
  /-- A fatal error has ended the run: the cause, the pc of the faulting instruction, its word or none if the fetch failed. -/
  | halted (cause : Cause) (atPc : Word) (word : Option Word)
  deriving DecidableEq, Repr

/-- Memory: the bytes that are not what an unlisted address reads as, by strictly rising address (`Memory.wf`). -/
abbrev Memory := List Host.Cell

/-- The framebuffer: 32 scanlines of 64 one-bit cells, top first; cell `px + 64 * py` is bit `px` of scanline `py` (R30, R171).
Log 19. -/
abbrev Framebuffer := Vector (BitVec fbWidth) fbHeight

/-- The state: the elements of R20 with `run_state`, and after them the model's own fields (INVENTORY.md). -/
structure State where
  /-- `memory`, 4096 bytes (R21). -/
  mem : Memory
  /-- V0..VF (R23); VF is the flag (R24). -/
  v : Vector Byte 16
  /-- I, the address register (R26). -/
  i : Word
  /-- The program counter (R25). -/
  pc : Word
  /-- The return stack (R27). -/
  stack : Vector Word 16
  /-- The stack pointer: how many entries are in use, 0..16 (R28). -/
  sp : Fin 17
  /-- DT, the delay timer (R29). -/
  dt : Byte
  /-- ST, the sound timer (R29). -/
  st : Byte
  /-- The framebuffer (R30). -/
  fb : Framebuffer
  /-- The keypad flags: `keypad[c]` says that key `c` is held (R31). -/
  keypad : Vector Bool 16
  /-- The control machine's state (R32). -/
  runState : RunState
  /-- The model's own: TIMER_MODE and SPRITE_WRAP, which no step changes (R6). Log 4. -/
  config : Config
  /-- The model's own: the host actions that come before the core's next own step, first one first (R92, R100). Log 2. -/
  schedule : List HostAction
  /-- The model's own: the byte on the input `rnd` of the current step, if the host's action gives one (R93). Log 3. -/
  rndIn : Option Byte
  /-- The model's own: how many free bytes have been drawn (R106). Log 3. -/
  draws : Nat
  deriving DecidableEq, Repr

/-- Why the machine stops: nothing that an instruction does ends in one of these. -/
inductive Fault where
  /-- Raised by `step` when a core step is requested in HALTED, where none is enabled (R91, R226, U18). Safe: no state follows. Log 1. -/
  | halted (cause : Cause) (atPc : Word) (word : Option Word)
  /-- Raised by `step` when the next host action of the schedule is not enabled in the present run state or timer mode (R91, U17).
  Safe: no state follows. Log 8. -/
  | notEnabled (a : HostAction)
  deriving DecidableEq, Repr

/-- What the model gives no meaning. -/
inductive Refusal where
  /-- An instruction without a meaning yet: raised by no arm of this model. -/
  | notModelled (mnemonic : String)
  /-- `SetKey` or `KeyPress` with a code above 15, refused at the interface (R100, D28, U17). Raised by `perform`. Safe. Log 8. -/
  | keyCodeOutOfRange (code : Nat)
  /-- `Launch` of a program longer than 3584 bytes, refused at the interface (R252, D20, U1). Raised by `perform`. Safe. Log 8. -/
  | programTooLong (length : Nat)
  deriving DecidableEq, Repr

/-- What a step, an instruction or a host action answers. -/
abbrev Result := Host.Outcome State Fault Refusal

/-- The machine right after reset (R36, R250): all zero but pc = 0x200 and `run_state` = RUNNING. -/
def State.reset : State where
  mem := []
  v := Vector.replicate 16 0
  i := 0
  pc := 0x200
  stack := Vector.replicate 16 0
  sp := 0
  dt := 0
  st := 0
  fb := Vector.replicate fbHeight 0
  keypad := Vector.replicate 16 false
  runState := .running
  config := Config.hardware
  schedule := []
  rndIn := none
  draws := 0

end Sys2Proof.Machine
end

