-- ==== Sys2Proof/Machine/Ops.lean ====
section
/-! DEFINITION. The operations the instructions share: memory, registers, pc, stack, raising a fatal error, fetching a word,
the timer tick, the random byte (spec/20_memory.md, spec/40_engine.md, spec/60_exceptions.md). -/

namespace Sys2Proof.Machine

/-! ### Memory (R21, R53) -/

/-- What an address that memory does not list reads as: 0x00, the reset value of every byte (R21). -/
def Memory.unlisted : Byte := 0x00

/-- `MemRead(a, 1)`: the byte at address `a` (R21). Called only after a range check. -/
def Memory.read : Memory → Nat → Byte
  | [], _ => Memory.unlisted
  | (k, b) :: m, a => if k = a then b else Memory.read m a

/-- `MemWrite(a, 1, b)`: the byte at address `a` becomes `b` and no other changes (R53). The list stays in its one form. -/
def Memory.write : Memory → Nat → Byte → Memory
  | [], a, b => if b = Memory.unlisted then [] else [(a, b)]
  | (k, c) :: m, a, b =>
    if a < k then (if b = Memory.unlisted then (k, c) :: m else (a, b) :: (k, c) :: m)
    else if a = k then (if b = Memory.unlisted then m else (a, b) :: m)
    else (k, c) :: Memory.write m a b

/-- Write bytes one after another from address `a` upward, in that order (R53, R9). -/
def Memory.writeBytes : Memory → Nat → List Byte → Memory
  | m, _, [] => m
  | m, a, b :: bs => Memory.writeBytes (m.write a b) (a + 1) bs

/-- `MemRead(a, 2)`: the big-endian word at `a` and `a + 1` (R50). -/
def Memory.readWord (m : Memory) (a : Nat) : Word := wordOfBytes (m.read a) (m.read (a + 1))

/-- The one form of a memory: addresses strictly rising and inside the 4096 bytes, no byte listed that reads so anyway. -/
abbrev Memory.wf (m : Memory) : Prop :=
  m.Pairwise (fun p q => p.1 < q.1) ∧ ∀ c ∈ m, c.1 < memSize ∧ c.2 ≠ Memory.unlisted

/-- No data access of `count` bytes from address `a` leaves memory (R55). An access of no bytes never does. -/
def dataFits (a count : Nat) : Bool := count = 0 || a + count - 1 ≤ 4095

/-! ### Registers and pc (R23, R25, R97) -/

/-- `V[x]`. -/
def State.readV (s : State) (x : RegIdx) : Byte := s.v[x]

/-- `V[x] <- b`. -/
def State.writeV (s : State) (x : RegIdx) (b : Byte) : State := { s with v := s.v.set x b }

/-- The register file as it is after an instruction that loads several registers. -/
def State.writeRegs (s : State) (v : Vector Byte 16) : State := { s with v := v }

/-- `I <- w`. -/
def State.writeI (s : State) (w : Word) : State := { s with i := w }

/-- `pc <- target`. -/
def State.jump (s : State) (target : Word) : State := { s with pc := target }

/-- `Advance(k)`: pc <- trunc_16(pc + k) (R97). -/
def State.advance (s : State) (k : Word) : State := { s with pc := s.pc + k }

/-- What a conditional skip does with pc: +4 when its condition holds, else +2 (R97). -/
def State.skipIf (s : State) (c : Bool) : State := if c then s.advance 4 else s.advance 2

/-- `DT <- b`. -/
def State.writeDt (s : State) (b : Byte) : State := { s with dt := b }

/-- `ST <- b`. -/
def State.writeSt (s : State) (b : Byte) : State := { s with st := b }

/-- `memory` as it is after an instruction's stores. -/
def State.writeMem (s : State) (m : Memory) : State := { s with mem := m }

/-- `fb` as it is after an instruction's drawing. -/
def State.writeFb (s : State) (f : Framebuffer) : State := { s with fb := f }

/-- `keypad[c] <- pressed` (R195). -/
def State.writeKey (s : State) (c : Fin 16) (pressed : Bool) : State := { s with keypad := s.keypad.set c pressed }

/-- `run_state <- r`. -/
def State.setRun (s : State) (r : RunState) : State := { s with runState := r }

/-- The host's coming actions become `l`. Log 2. -/
def State.setSchedule (s : State) (l : List HostAction) : State := { s with schedule := l }

/-- The input `rnd` of the step holds `b`, or nothing. Log 3. -/
def State.setRndIn (s : State) (b : Option Byte) : State := { s with rndIn := b }

/-! ### The return stack (R27, R28) -/

/-- `stack[sp] <- a; sp <- sp + 1`, for a stack that is not full. -/
def State.push (s : State) (a : Word) (h : s.sp.val < stackDepth) : State :=
  { s with stack := s.stack.set s.sp.val a, sp := ⟨s.sp.val + 1, Nat.succ_lt_succ h⟩ }

/-- `stack[sp − 1]`, for a stack that is not empty. -/
def State.top (s : State) (h : 0 < s.sp.val) : Word := s.stack[s.sp.val - 1]'(by have := s.sp.isLt; omega)

/-- `sp <- sp − 1`; the entry keeps its value (R27). -/
def State.drop (s : State) : State := { s with sp := ⟨s.sp.val - 1, by have := s.sp.isLt; omega⟩ }

/-! ### Fatal errors (R220) -/

/-- `raise cause(at_pc = pc, word)`: `run_state` becomes HALTED, and nothing else changes (R220). -/
def State.raise (s : State) (cause : Cause) (word : Option Word) : State :=
  { s with runState := .halted cause s.pc word }

/-! ### Fetch (R94) -/

/-- The word at pc, or none when pc > 0xFFE, where a fetch leaves memory (R94). -/
def State.fetchWord (s : State) : Option Word :=
  if s.pc.toNat ≤ lastFetch then some (s.mem.readWord s.pc.toNat) else none

/-! ### The timer tick (R190, R98) -/

/-- A timer counts down to 0 and stays there (R190). -/
def countDown (t : Byte) : Byte := if t = 0 then 0 else t - 1

/-- `TimerTick` (R190). -/
def State.timerTick (s : State) : State := { s with dt := countDown s.dt, st := countDown s.st }

/-- The tick of a completed instruction: in `per_instruction` mode only (R98, R191). -/
def State.tickIfPerInstruction (s : State) : State :=
  match s.config.timerMode with
  | .perInstruction => s.timerTick
  | .externalTick => s

/-- The end of a step: the tick, only if the instruction completed, that is, if the run state is RUNNING (R93, R98). -/
def State.finishStep (s : State) : State :=
  match s.runState with
  | .running => s.tickIfPerInstruction
  | .waitKey _ | .halted _ _ _ => s

/-! ### The random byte of a step (R106) -/

/-- The byte `rnd` of this step: the one the host's action gives, else the next free value. Log 3. -/
def State.rndByte (s : State) : Byte := s.rndIn.getD (Config.freeByte s.draws)

/-- The random byte has been used: the input is empty again, or one more free value has been drawn. -/
def State.useRnd (s : State) : State :=
  match s.rndIn with
  | some _ => s.setRndIn none
  | none => { s with draws := s.draws + 1 }

/-! ### Results -/

/-- Apply a function to the next state of a result, if it has one. -/
def onNext (f : State → State) : Result → Result
  | .next s => .next (f s)
  | .fault r => .fault r
  | .refused r => .refused r

end Sys2Proof.Machine
end

