-- ==== Sys2Proof/Machine/Operands.lean ====
section
/-! DEFINITION. The operands that are more than a register: data addresses and the bytes moved through them
(spec/43_index_memory.md R156, R153 to R155), and the geometry of a sprite (spec/44_display.md R171 to R175). -/

namespace Sys2Proof.Machine

/-! ### Data accesses through I (R156) -/

/-- The effective address `I + offset`, an unbounded integer (R156). -/
def State.dataAddr (s : State) (offset : Nat) : Nat := s.i.toNat + offset

/-- The value of I after `FX55` and `FX65`: I + X + 1 modulo 2^16 (R154, R155). -/
def State.iAfter (s : State) (x : RegIdx) : Word := s.i + BitVec.ofNat 16 (x.val + 1)

/-- The decimal digits of a byte: hundreds, tens, units (R153). -/
def decimalDigits (b : Byte) : List Byte :=
  [BitVec.ofNat 8 (b.toNat / 100), BitVec.ofNat 8 (b.toNat / 10 % 10), BitVec.ofNat 8 (b.toNat % 10)]

/-- The registers V0 to VX in order (R154). -/
def State.regsUpTo (s : State) (x : RegIdx) : List Byte := s.v.toList.take (x.val + 1)

/-- `for i from 0 to x do V[i] <- MemRead(I + i, 1)` (R155), written from register `n` down to V0, which is the same. -/
def State.loadRegs (s : State) : Nat → Vector Byte 16 → Vector Byte 16
  | 0, v => v
  | n + 1, v => State.loadRegs s n (v.setIfInBounds n (s.mem.read (s.dataAddr n)))

/-! ### Sprites (R171 to R175) -/

/-- `Cell(bx, by, r, c)`: the cell of the sprite pixel at row offset `r` and column offset `c` (R173, R174). -/
def spriteCell (w : SpriteWrap) (bx bY r c : Nat) : Nat :=
  match w with
  | .perAxis => (bx + c) % 64 + 64 * ((bY + r) % 32)
  | .linear => (bx + c + 64 * (bY + r)) % 2048

/-- The column offsets of the set bits of a sprite row: column `c` is bit `7 − c` (R175). -/
def setColumns (row : Byte) : List Nat := (List.range 8).filter (fun c => row.getLsbD (7 - c))

/-- The cells that a sprite's set bits address, row by row and column by column (R172). -/
def State.spriteCells (s : State) (bx bY : Byte) (n : Nat) : List Nat :=
  (List.range n).flatMap fun r =>
    (setColumns (s.mem.read (s.dataAddr r))).map fun c => spriteCell s.config.spriteWrap bx.toNat bY.toNat r c

/-- `fb[k]`, the cell of index `k` (R30): bit `k mod 64` of scanline `k / 64`. -/
def Framebuffer.cell (f : Framebuffer) (k : Nat) : Bool := (f[k / fbWidth]?.getD 0).getLsbD (k % fbWidth)

/-- `fb[k] <- fb[k] ^ 1` (R172). -/
def Framebuffer.flip (f : Framebuffer) (k : Nat) : Framebuffer :=
  f.setIfInBounds (k / fbWidth) (f[k / fbWidth]?.getD 0 ^^^ BitVec.twoPow fbWidth (k % fbWidth))

/-- The framebuffer with every cell 0 (R170). -/
def Framebuffer.clear : Framebuffer := Vector.replicate fbHeight 0

/-- Draw the cells one after another: the framebuffer, and whether one of them was 1 when it was drawn (R172). -/
def drawCells : List Nat → Framebuffer × Bool → Framebuffer × Bool
  | [], acc => acc
  | k :: ks, (f, hit) => drawCells ks (f.flip k, hit || f.cell k)

end Sys2Proof.Machine
end

