-- ==== Sys2Proof/Machine/Flags.lean ====
section
/-! DEFINITION. The flag VF and the values the four flag-writing instructions give it (spec/10_state.md R24, spec/42_alu.md R138). -/

namespace Sys2Proof.Machine

/-- A flag as a byte: 1 or 0 (R24). -/
def flagByte (c : Bool) : Byte := if c then 1 else 0

/-- `V[15] <- (if c then 1 else 0)` (R24). -/
def State.setFlag (s : State) (c : Bool) : State := s.writeV vf (flagByte c)

/-- The carry of `8XY4`: the widened sum is above 255 (R134). -/
def carry (a b : Byte) : Bool := 255 < a.toNat + b.toNat

/-- The NOT-borrow flag of `8XY5` and `8XY7`: the minuend is strictly above the subtrahend (R135, R136, R138). -/
def notBorrow (minuend subtrahend : Byte) : Bool := subtrahend.toNat < minuend.toNat

end Sys2Proof.Machine
end

