-- ==== Sys2Proof/Machine/Alu.lean ====
section
/-! DEFINITION. The register and arithmetic instructions (spec/42_alu.md R130 to R138). Statements run in the order the rules
write them (R9), which decides the result where VF is also an operand (log 11). -/

namespace Sys2Proof.Machine

/-- `6XKK` LD Vx, byte (R131). -/
def execLdImm (x : RegIdx) (kk : Byte) (s : State) : Result := .next ((s.writeV x kk).advance 2)

/-- `7XKK` ADD Vx, byte (R132): wraps, no flag. -/
def execAddImm (x : RegIdx) (kk : Byte) (s : State) : Result := .next ((s.writeV x (s.readV x + kk)).advance 2)

/-- `8XY0` LD Vx, Vy (R133). -/
def execLdReg (x y : RegIdx) (s : State) : Result := .next ((s.writeV x (s.readV y)).advance 2)

/-- `8XY4` ADD Vx, Vy (R134): both registers are read, VF gets the carry, then V[x] the sum. -/
def execAddReg (x y : RegIdx) (s : State) : Result :=
  .next (((s.setFlag (carry (s.readV x) (s.readV y))).writeV x (s.readV x + s.readV y)).advance 2)

/-- `8XY5` SUB Vx, Vy (R135): VF first; the difference is of the registers as they are after that. -/
def execSub (x y : RegIdx) (s : State) : Result :=
  let t := s.setFlag (notBorrow (s.readV x) (s.readV y))
  .next ((t.writeV x (t.readV x - t.readV y)).advance 2)

/-- `8XY7` SUBN Vx, Vy (R136): VF first; the difference is of the registers as they are after that. -/
def execSubn (x y : RegIdx) (s : State) : Result :=
  let t := s.setFlag (notBorrow (s.readV y) (s.readV x))
  .next ((t.writeV x (t.readV y - t.readV x)).advance 2)

/-- `CXKK` RND Vx, byte (R137): V[x] <- rnd & kk. -/
def execRnd (x : RegIdx) (kk : Byte) (s : State) : Result :=
  .next ((s.useRnd.writeV x (s.rndByte &&& kk)).advance 2)

end Sys2Proof.Machine
end

