-- ==== Sys2Proof/Machine/Control.lean ====
section
/-! DEFINITION. The control transfer instructions (spec/41_control_flow.md R110 to R119). -/

namespace Sys2Proof.Machine

/-- `00EE` RET (R111): pop into pc, then pc + 2; StackUnderflow when sp = 0. -/
def execRet (s : State) : Result :=
  if h : 0 < s.sp.val then .next ((s.drop.jump (s.top h)).advance 2)
  else .next (s.raise .stackUnderflow (some (encode .ret)))

/-- `1NNN` JP addr (R114): pc <- addr. -/
def execJp (addr : Addr) (s : State) : Result := .next (s.jump (addr.setWidth 16))

/-- `2NNN` CALL addr (R112): push the address of this word, then pc <- addr; StackOverflow when sp = 16. -/
def execCall (addr : Addr) (s : State) : Result :=
  if h : s.sp.val < stackDepth then .next ((s.push s.pc h).jump (addr.setWidth 16))
  else .next (s.raise .stackOverflow (some (encode (.call addr))))

/-- `3XKK` SE Vx, byte (R115). -/
def execSeImm (x : RegIdx) (kk : Byte) (s : State) : Result := .next (s.skipIf (s.readV x == kk))

/-- `4XKK` SNE Vx, byte (R116). -/
def execSneImm (x : RegIdx) (kk : Byte) (s : State) : Result := .next (s.skipIf (s.readV x != kk))

/-- `5XY0` SE Vx, Vy (R117). -/
def execSeReg (x y : RegIdx) (s : State) : Result := .next (s.skipIf (s.readV x == s.readV y))

/-- `9XY0` SNE Vx, Vy (R118). -/
def execSneReg (x y : RegIdx) (s : State) : Result := .next (s.skipIf (s.readV x != s.readV y))

/-- `BNNN` JP V0, addr (R113): pc <- addr + V0, not reduced to 12 bits. -/
def execJpV0 (addr : Addr) (s : State) : Result :=
  .next (s.jump (addr.setWidth 16 + (s.readV 0).setWidth 16))

end Sys2Proof.Machine
end

