-- ==== Sys2Proof/Machine/Display.lean ====
section
/-! DEFINITION. The display instructions and the framebuffer export (spec/44_display.md R170 to R175, spec/40_engine.md R103). -/

namespace Sys2Proof.Machine

/-- `00E0` CLS (R170): every cell 0. -/
def execCls (s : State) : Result := .next ((s.writeFb Framebuffer.clear).advance 2)

/-- `DXYN` DRW Vx, Vy, nibble (R172): the coordinates are latched, the sprite's set bits are XORed onto the framebuffer, VF says
whether one of them met a cell that was 1; MemoryOutOfRange when the last row lies beyond address 4095. -/
def execDrw (x y : RegIdx) (n : Nibble) (s : State) : Result :=
  if dataFits (s.dataAddr 0) n.toNat then
    let drawn := drawCells (s.spriteCells (s.readV x) (s.readV y) n.toNat) (s.fb, false)
    .next (((s.setFlag drawn.2).writeFb drawn.1).advance 2)
  else .next (s.raise .memoryOutOfRange (some (encode (.drw x y n))))

/-- `ReadFramebuffer` (R103): 2048 cells, each 0 or 1, cell `k` being the pixel of column `k mod 64` and row `k / 64`. -/
def State.exportFramebuffer (s : State) : List Byte := (List.range fbCells).map fun k => if s.fb.cell k then 1 else 0

/-- The cell of the pixel in column `px` and row `py` (R30, R171). -/
def State.pixel (s : State) (px : Fin 64) (py : Fin 32) : Bool := s.fb.cell (px.val + 64 * py.val)

end Sys2Proof.Machine
end

