-- ==== Sys2Proof/Machine/IndexMemory.lean ====
section
/-! DEFINITION. The address register and memory instructions (spec/43_index_memory.md R150 to R156). -/

namespace Sys2Proof.Machine

/-- `ANNN` LD I, addr (R150). -/
def execLdI (addr : Addr) (s : State) : Result := .next ((s.writeI (addr.setWidth 16)).advance 2)

/-- `FX1E` ADD I, Vx (R151): modulo 2^16, no flag. -/
def execAddI (x : RegIdx) (s : State) : Result := .next ((s.writeI (s.i + (s.readV x).setWidth 16)).advance 2)

/-- `FX29` LD F, Vx (R152): I <- V[x] * 5, of the whole byte. -/
def execLdF (x : RegIdx) (s : State) : Result := .next ((s.writeI ((s.readV x).setWidth 16 * 5)).advance 2)

/-- `FX33` LD B, Vx (R153): the three decimal digits to I, I + 1, I + 2. -/
def execLdB (x : RegIdx) (s : State) : Result :=
  if dataFits (s.dataAddr 0) 3 then
    .next ((s.writeMem (s.mem.writeBytes (s.dataAddr 0) (decimalDigits (s.readV x)))).advance 2)
  else .next (s.raise .memoryOutOfRange (some (encode (.ldB x))))

/-- `FX55` LD [I], Vx (R154): V0 to VX to I onward, then I <- I + X + 1. -/
def execLdMemVx (x : RegIdx) (s : State) : Result :=
  if dataFits (s.dataAddr 0) (x.val + 1) then
    .next (((s.writeMem (s.mem.writeBytes (s.dataAddr 0) (s.regsUpTo x))).writeI (s.iAfter x)).advance 2)
  else .next (s.raise .memoryOutOfRange (some (encode (.ldMemVx x))))

/-- `FX65` LD Vx, [I] (R155): V0 to VX from I onward, then I <- I + X + 1. -/
def execLdVxMem (x : RegIdx) (s : State) : Result :=
  if dataFits (s.dataAddr 0) (x.val + 1) then
    .next (((s.writeRegs (s.loadRegs (x.val + 1) s.v)).writeI (s.iAfter x)).advance 2)
  else .next (s.raise .memoryOutOfRange (some (encode (.ldVxMem x))))

end Sys2Proof.Machine
end

