-- ==== Sys2Proof/Machine/TimersKeypad.lean ====
section
/-! DEFINITION. The timer and keypad instructions, and what the host's key actions do (spec/45_timers_keypad.md R190 to R201). -/

namespace Sys2Proof.Machine

/-- The value of `V[x]` as a key code, or none when it is above 15 (R196, R197). -/
def State.keyCode (s : State) (x : RegIdx) : Option (Fin 16) :=
  if h : (s.readV x).toNat < numKeys then some ⟨(s.readV x).toNat, h⟩ else none

/-- `EX9E` SKP Vx (R196): skip if the key whose code is V[x] is held; KeyIndexOutOfRange when V[x] > 15. -/
def execSkp (x : RegIdx) (s : State) : Result :=
  match s.keyCode x with
  | some k => .next (s.skipIf s.keypad[k])
  | none => .next (s.raise .keyIndexOutOfRange (some (encode (.skp x))))

/-- `EXA1` SKNP Vx (R197): skip if the key whose code is V[x] is not held; KeyIndexOutOfRange when V[x] > 15. -/
def execSknp (x : RegIdx) (s : State) : Result :=
  match s.keyCode x with
  | some k => .next (s.skipIf (!s.keypad[k]))
  | none => .next (s.raise .keyIndexOutOfRange (some (encode (.sknp x))))

/-- `FX07` LD Vx, DT (R192): the value before the tick of this step. -/
def execLdVxDt (x : RegIdx) (s : State) : Result := .next ((s.writeV x s.dt).advance 2)

/-- `FX0A` LD Vx, K (R198): the core suspends; pc and every register stay. `State.keyPress` completes it. -/
def execLdVxK (x : RegIdx) (s : State) : Result := .next (s.setRun (.waitKey x))

/-- `FX15` LD DT, Vx (R193). -/
def execLdDtVx (x : RegIdx) (s : State) : Result := .next ((s.writeDt (s.readV x)).advance 2)

/-- `FX18` LD ST, Vx (R194). -/
def execLdStVx (x : RegIdx) (s : State) : Result := .next ((s.writeSt (s.readV x)).advance 2)

/-- What `KeyPress(code)` does to a core that waits for register `x` (R199): the code to V[x], pc + 2, RUNNING, the tick of the
completed `FX0A`. The keypad is not written. -/
def State.keyPress (s : State) (x : RegIdx) (code : Fin 16) : State :=
  (((s.writeV x (BitVec.ofNat 8 code.val)).advance 2).setRun .running).tickIfPerInstruction

/-- What `Cancel` does (R200): HALTED(Cancelled) with the word at pc, and nothing else. -/
def State.cancel (s : State) : State := s.raise .cancelled s.fetchWord

end Sys2Proof.Machine
end

