-- ==== Sys2Proof/WellFormed.lean ====
section
/-! DEFINITION. What is well formed: an instruction word (spec/30_encoding.md R75, R76) and a host action (spec/40_engine.md R100).
The operand fields of `Instr` carry their ranges in their types (R72), so every term of `Instr` is well formed. -/

namespace Sys2Proof

/-- A row of the opcode table: the fixed bits of an encoding and which bits they are (R76). -/
structure Row where
  mask : Word
  pattern : Word
  deriving DecidableEq, Repr

/-- A word is the instruction of a row if and only if `(w & mask) == match` (R75). -/
def Row.matches (r : Row) (w : Word) : Bool := w &&& r.mask == r.pattern

/-- The row of each instruction: the columns mask and match of the table of R76. -/
def Instr.row : Instr → Row
  | .cls => ⟨0xFFFF, 0x00E0⟩
  | .ret => ⟨0xFFFF, 0x00EE⟩
  | .jp _ => ⟨0xF000, 0x1000⟩
  | .call _ => ⟨0xF000, 0x2000⟩
  | .seImm _ _ => ⟨0xF000, 0x3000⟩
  | .sneImm _ _ => ⟨0xF000, 0x4000⟩
  | .seReg _ _ => ⟨0xF00F, 0x5000⟩
  | .ldImm _ _ => ⟨0xF000, 0x6000⟩
  | .addImm _ _ => ⟨0xF000, 0x7000⟩
  | .ldReg _ _ => ⟨0xF00F, 0x8000⟩
  | .addReg _ _ => ⟨0xF00F, 0x8004⟩
  | .sub _ _ => ⟨0xF00F, 0x8005⟩
  | .subn _ _ => ⟨0xF00F, 0x8007⟩
  | .sneReg _ _ => ⟨0xF00F, 0x9000⟩
  | .ldI _ => ⟨0xF000, 0xA000⟩
  | .jpV0 _ => ⟨0xF000, 0xB000⟩
  | .rnd _ _ => ⟨0xF000, 0xC000⟩
  | .drw _ _ _ => ⟨0xF000, 0xD000⟩
  | .skp _ => ⟨0xF0FF, 0xE09E⟩
  | .sknp _ => ⟨0xF0FF, 0xE0A1⟩
  | .ldVxDt _ => ⟨0xF0FF, 0xF007⟩
  | .ldVxK _ => ⟨0xF0FF, 0xF00A⟩
  | .ldDtVx _ => ⟨0xF0FF, 0xF015⟩
  | .ldStVx _ => ⟨0xF0FF, 0xF018⟩
  | .addI _ => ⟨0xF0FF, 0xF01E⟩
  | .ldF _ => ⟨0xF0FF, 0xF029⟩
  | .ldB _ => ⟨0xF0FF, 0xF033⟩
  | .ldMemVx _ => ⟨0xF0FF, 0xF055⟩
  | .ldVxMem _ => ⟨0xF0FF, 0xF065⟩

/-- The table of R76 as its 29 pairs of mask and match. -/
def opcodeRows : List Row :=
  [Instr.cls.row, Instr.ret.row, (Instr.jp 0).row, (Instr.call 0).row, (Instr.seImm 0 0).row, (Instr.sneImm 0 0).row,
    (Instr.seReg 0 0).row, (Instr.ldImm 0 0).row, (Instr.addImm 0 0).row, (Instr.ldReg 0 0).row] ++
  [(Instr.addReg 0 0).row, (Instr.sub 0 0).row, (Instr.subn 0 0).row, (Instr.sneReg 0 0).row, (Instr.ldI 0).row,
    (Instr.jpV0 0).row, (Instr.rnd 0 0).row, (Instr.drw 0 0 0).row, (Instr.skp 0).row, (Instr.sknp 0).row] ++
  [(Instr.ldVxDt 0).row, (Instr.ldVxK 0).row, (Instr.ldDtVx 0).row, (Instr.ldStVx 0).row, (Instr.addI 0).row,
    (Instr.ldF 0).row, (Instr.ldB 0).row, (Instr.ldMemVx 0).row, (Instr.ldVxMem 0).row]

/-- A word is an instruction when it matches a row; every other word is unknown (R75, R77). -/
def wellFormedWord (w : Word) : Bool := opcodeRows.any (·.matches w)

/-- What the interface accepts: a key code of 4 bits (R100, D28) and a program of at most 3584 bytes (R252, D20). -/
def Machine.HostAction.wellFormed : Machine.HostAction → Bool
  | .launch program => program.length ≤ maxProgram
  | .setKey code _ => code < numKeys
  | .keyPress code => code < numKeys
  | .step _ | .cancel | .readFramebuffer | .tick => true

end Sys2Proof
end

