-- ==== Sys2Proof/Machine/Engine.lean ====
section
/-! DEFINITION. One step of the core, and the actions of the host (spec/40_engine.md R90 to R107, spec/70_reset_and_hazards.md R250, R252). -/

namespace Sys2Proof.Machine

/-! ### The core (R93) -/

/-- Fetch, decode and execute in RUNNING, before the tick (R93, R94, R95, R227): a fetch with pc > 0xFFE and a word that is no
instruction are fatal; else the instruction has its effect. -/
def cycle (s : State) : Result :=
  match s.fetchWord with
  | none => .next (s.raise .fetchOutOfRange none)
  | some w =>
    match (decode w).instr? with
    | none => .next (s.raise .unknownInstruction (some w))
    | some i => exec i s

/-- `Step(rnd)` (R93, R99): in RUNNING one instruction and the tick of R98; in WAIT_KEY it reports pending and changes nothing; in
HALTED no step is enabled (R91, R226). -/
def coreStep (s : State) : Result :=
  match s.runState with
  | .running => onNext State.finishStep (cycle s)
  | .waitKey _ => .next s
  | .halted cause atPc word => .fault (.halted cause atPc word)

/-! ### The host (R91, R100) -/

/-- The state a program starts from (R252): reset, then the program's bytes from 0x200 onward. -/
def State.launched (program : List Byte) : State :=
  { State.reset with mem := Memory.writeBytes [] loadBase program }

/-- `Launch` on a machine in use: every element of R20 becomes that of the launch state; the parameters of the hardware and the
model's own record of the host stay. Log 7. -/
def State.launch (s : State) (program : List Byte) : State :=
  { State.launched program with config := s.config, schedule := s.schedule, draws := s.draws }

/-- `Step(rnd)` with the byte the host gives; a byte that the step does not use is dropped (R93, R106). -/
def stepWith (rnd : Byte) (s : State) : Result :=
  onNext (fun t => t.setRndIn none) (coreStep (s.setRndIn (some rnd)))

/-- `SetKey` (R195): enabled unless HALTED. -/
def setKey (code : Nat) (pressed : Bool) (s : State) : Result :=
  if h : code < numKeys then
    match s.runState with
    | .running | .waitKey _ => .next (s.writeKey ⟨code, h⟩ pressed)
    | .halted _ _ _ => .fault (.notEnabled (.setKey code pressed))
  else .refused (.keyCodeOutOfRange code)

/-- `KeyPress` (R199): enabled in WAIT_KEY only. -/
def pressKey (code : Nat) (s : State) : Result :=
  if h : code < numKeys then
    match s.runState with
    | .waitKey x => .next (s.keyPress x ⟨code, h⟩)
    | .running | .halted _ _ _ => .fault (.notEnabled (.keyPress code))
  else .refused (.keyCodeOutOfRange code)

/-- `Cancel` (R200): enabled in WAIT_KEY only. -/
def cancelWait (s : State) : Result :=
  match s.runState with
  | .waitKey _ => .next s.cancel
  | .running | .halted _ _ _ => .fault (.notEnabled .cancel)

/-- `Tick` (R191): enabled in `external_tick` mode, unless HALTED. -/
def hostTick (s : State) : Result :=
  match s.config.timerMode, s.runState with
  | .externalTick, .running => .next s.timerTick
  | .externalTick, .waitKey _ => .next s.timerTick
  | .externalTick, .halted _ _ _ => .fault (.notEnabled .tick)
  | .perInstruction, _ => .fault (.notEnabled .tick)

/-- `Launch` (R252): a program above 3584 bytes is refused at the interface (D20). -/
def launchProgram (program : List Byte) (s : State) : Result :=
  if program.length ≤ maxProgram then .next (s.launch program) else .refused (.programTooLong program.length)

/-- One host action (R91, R100). `ReadFramebuffer` changes no state (R103); what it returns is `State.exportFramebuffer`. -/
def perform (a : HostAction) (s : State) : Result :=
  match a with
  | .launch program => launchProgram program s
  | .step rnd => stepWith rnd s
  | .setKey code pressed => setKey code pressed s
  | .keyPress code => pressKey code s
  | .cancel => cancelWait s
  | .readFramebuffer => .next s
  | .tick => hostTick s

/-- The next action of the two agents (R90, R92): the first of the schedule, or, when the schedule is empty, a step of the core
with a byte under no law. Log 2. -/
def nextAction (s : State) : Result :=
  match s.schedule with
  | [] => coreStep s
  | a :: rest => perform a (s.setSchedule rest)

/-! ### Placing a word where the next fetch reads it -/

/-- The state in which the next step fetches `w`: the word's two bytes at pc, the core RUNNING, no host action before it. pc
stays where it is unless no instruction can be fetched there. Log 24. -/
def State.placeWord (s : State) (w : Word) : State :=
  let pc : Word := if s.pc.toNat ≤ lastFetch then s.pc else BitVec.ofNat 16 loadBase
  { s with
    pc := pc, runState := .running, schedule := []
    mem := s.mem.writeBytes pc.toNat [hiByte w, loByte w] }

end Sys2Proof.Machine
end

