-- ==== Sys2Proof/Machine/Step.lean ====
section
/-! DEFINITION. The step of the machine, and where the host places an instruction for it. -/

namespace Sys2Proof.Machine

/-- One step: the next action of the two agents (R92), which is a step of the core unless the host acts first. -/
def step (s : State) : Host.Outcome State Fault Refusal := nextAction s

/-- `s` with the instruction word `w` stored where `step` fetches its next instruction. -/
def State.withFetchWord (s : State) (nbits w : Nat) : State := s.placeWord (tableWord nbits w)

end Sys2Proof.Machine
end

