-- ==== Sys2Proof/Safety.lean ====
section
/-! DEFINITION. What counts as a sound state, a safe state and a finished run (spec/10_state.md R34, spec/40_engine.md R105,
spec/60_exceptions.md R226). -/

namespace Sys2Proof.Machine

/-- Every return address in use is the address of a word that was fetched, so it is at most 0xFFE (R34 (d)). -/
abbrev State.stackSound (s : State) : Prop :=
  ∀ j : Fin 16, j.val < s.sp.val → s.stack[j].toNat ≤ lastFetch

/-- What `run_state` says is true of pc and memory: a wait stands at an `FX0A` of the same register (R32), and a fatal stop names
the pc it stands at and the word there, which is absent exactly when the fetch was what failed (R220, R221). -/
abbrev State.runSound (s : State) : Prop :=
  match s.runState with
  | .running => True
  | .waitKey x => s.fetchWord = some (encode (.ldVxK x))
  | .halted cause atPc word => atPc = s.pc ∧ word = s.fetchWord ∧ (word = none ↔ cause = .fetchOutOfRange)

/-- The invariant of the machine (R34): (a) to (c) hold by the types of `State`; memory has its one form, every return address in
use is at most 0xFFE (d), pc is at most 0x10FE (e), and `run_state` is true of the rest (R32, R220). -/
structure State.Inv (s : State) : Prop where
  mem : s.mem.wf
  pc : s.pc.toNat ≤ 0x10FE
  stack : s.stackSound
  run : s.runSound

/-- A state no fatal error has ended (R226: that a run does not reach HALTED is something to prove). -/
def State.safe (s : State) : Bool :=
  match s.runState with
  | .running | .waitKey _ => true
  | .halted _ _ _ => false

/-- `END_OF_RUN` as R105 recommends it: RUNNING, at a jump to itself, both timers 0. Log 21. -/
def State.endOfRun (s : State) : Bool :=
  s.runState == .running && s.dt == 0 && s.st == 0 &&
    s.pc.toNat < memSize && s.fetchWord == some (encode (.jp (s.pc.setWidth 12)))

end Sys2Proof.Machine
end

