-- ==== Sys2Proof/Certificates/Slice0/Obligations.lean ====
section
/-! DEFINITION. What is stated about the machine, each from a rule of spec/. A next state is written as the state before with the
elements that change, so that a statement says what stays as well. -/

open Sys2Proof Sys2Proof.Machine

/-! ### Encoding -/

/-- Words written out from the encodings of R76 decode to the instructions they stand for (vectors EN1 to EN8). -/
def Obligations.SampleWordsDecode : Prop :=
  decode 0x00E0 = .instr .cls ∧ decode 0x1234 = .instr (.jp 0x234) ∧ decode 0x3A05 = .instr (.seImm 10 0x05) ∧
  decode 0x8FE4 = .instr (.addReg 15 14) ∧ decode 0xD12F = .instr (.drw 1 2 15) ∧ decode 0xE29E = .instr (.skp 2) ∧
  decode 0xFE65 = .instr (.ldVxMem 14) ∧ decode 0xE000 = .unknown 0xE000 ∧
  decodeBytes [0x34, 0x12, 0x00] = (.instr (.seImm 4 0x12), [0x00]) ∧ decodeBytes [0x12] = (.truncated, [0x12])

/-- Decode and encode agree: every instruction, at every operand, is read back from its word and from its bytes. -/
def Obligations.DecodeInvertsEncode : Prop :=
  ∀ (i : Instr) (rest : List Byte),
    decode (encode i) = .instr i ∧ decodeBytes (encodeBytes i ++ rest) = (.instr i, rest)

/-- No bit of a word is dropped by decoding: the instruction of a word encodes to that word. -/
def Obligations.EncodeInvertsDecode : Prop := ∀ (w : Word) (i : Instr), decode w = .instr i → encode i = w

/-- R75: a word is the instruction of a row if and only if `(w & mask) == match`, and it matches no other row. That every fixed
nibble is compared is the spec's decision D2. -/
def Obligations.DecodeFollowsOpcodeTable : Prop :=
  ∀ w : Word,
    ((∃ i, decode w = .instr i) ↔ ∃ r ∈ opcodeRows, w &&& r.mask = r.pattern) ∧
    ∀ i, decode w = .instr i → ∀ r ∈ opcodeRows, (w &&& r.mask = r.pattern ↔ r = i.row)

/-- R77: the unknown words are exactly the sets the rule lists. That they are fatal words at all is the spec's decision D1. -/
def Obligations.UnknownWordsAreTheListedSets : Prop :=
  ∀ w : Word, decode w = .unknown w ↔
    let op := w.toNat / 4096
    let n := w.toNat % 16
    let kk := w.toNat % 256
    (op = 0x0 ∧ w.toNat ≠ 0x00E0 ∧ w.toNat ≠ 0x00EE) ∨
    (op = 0x5 ∧ n ≠ 0) ∨
    (op = 0x8 ∧ n ∉ [0, 4, 5, 7]) ∨
    (op = 0x9 ∧ n ≠ 0) ∨
    (op = 0xE ∧ kk ∉ [0x9E, 0xA1]) ∨
    (op = 0xF ∧ kk ∉ [0x07, 0x0A, 0x15, 0x18, 0x1E, 0x29, 0x33, 0x55, 0x65])

/-! ### The step -/

/-- R50: the fetched word is `memory[pc] * 256 + memory[pc+1]`. -/
def Obligations.FetchIsBigEndian : Prop :=
  ∀ s : State, s.pc.toNat ≤ 0xFFE →
    ∃ w, s.fetchWord = some w ∧ w.toNat = (s.mem.read s.pc.toNat).toNat * 256 + (s.mem.read (s.pc.toNat + 1)).toNat

/-- R93, R95: in RUNNING, with no host action before it, a step is the instruction of the word at pc, and then the end of the
step (`State.finishStep`, the tick of R98). That an empty schedule is a requested step is the model's choice (log 2). -/
def Obligations.StepRunsDecodedInstruction : Prop :=
  ∀ (s : State) (i : Instr), s.schedule = [] → s.runState = .running → s.pc.toNat ≤ 0xFFE →
    decode (s.mem.readWord s.pc.toNat) = .instr i → step s = onNext State.finishStep (exec i s)

/-- The model's choice of log 2 and log 3: a scheduled host action is performed before the core's own step, and a scheduled
`Step(rnd)` runs the instruction at pc with that byte on the input `rnd` (R92, R93). -/
def Obligations.ScheduledActionIsPerformedFirst : Prop :=
  (∀ (s : State) (a : HostAction) (rest : List HostAction), s.schedule = a :: rest →
    step s = perform a { s with schedule := rest }) ∧
  ∀ (s : State) (rnd : Byte) (i : Instr), s.runState = .running → s.pc.toNat ≤ 0xFFE →
    decode (s.mem.readWord s.pc.toNat) = .instr i →
    perform (.step rnd) s = onNext (fun t => { t.finishStep with rndIn := none }) (exec i { s with rndIn := some rnd })

/-- A fetch with pc above 0xFFE is fatal with FetchOutOfRange and no word, and changes nothing else: the spec's decision D8. -/
def Obligations.FetchOutsideMemoryIsFatal : Prop :=
  ∀ s : State, s.schedule = [] → s.runState = .running → 0xFFE < s.pc.toNat →
    step s = .next { s with runState := .halted .fetchOutOfRange s.pc none }

/-- R222: a word with no defined handler is fatal, with the word and the pc, and changes nothing else; `F0FF` is one. -/
def Obligations.UnknownWordIsFatal : Prop :=
  decode 0xF0FF = .unknown 0xF0FF ∧
  ∀ (s : State) (w : Word), s.schedule = [] → s.runState = .running → s.fetchWord = some w → decode w = .unknown w →
    step s = .next { s with runState := .halted .unknownInstruction s.pc (some w) }

/-- R220: a step that ends in HALTED changes nothing but `run_state`, which names the pc and the fetched word (absent when the
fetch failed); after it the core stops. -/
def Obligations.HaltingStepChangesNothingElse : Prop :=
  ∀ (s t : State) (c : Cause) (p : Word) (w : Option Word), s.schedule = [] → s.runState = .running →
    step s = .next t → t.runState = .halted c p w →
    t = { s with runState := .halted c s.pc s.fetchWord } ∧ step t = .fault (.halted c s.pc s.fetchWord)

/-- R221: which instruction raises which cause, and only under its condition on the state before. The causes beyond the
document's three classes are the spec's decisions D7, D9. -/
def Obligations.FatalCausesFollowTheTable : Prop :=
  ∀ (i : Instr) (s t : State) (c : Cause) (p : Word) (w : Option Word), s.runState = .running →
    exec i s = .next t → t.runState = .halted c p w →
    (c = .stackOverflow ∧ (∃ addr, i = .call addr) ∧ s.sp.val = 16) ∨
    (c = .stackUnderflow ∧ i = .ret ∧ s.sp.val = 0) ∨
    (c = .memoryOutOfRange ∧
      ((∃ x y n, i = .drw x y n ∧ 1 ≤ n.toNat ∧ 4095 < s.i.toNat + n.toNat - 1) ∨
       (∃ x, i = .ldB x ∧ 4095 < s.i.toNat + 2) ∨
       (∃ x, (i = .ldMemVx x ∨ i = .ldVxMem x) ∧ 4095 < s.i.toNat + x.val))) ∨
    (c = .keyIndexOutOfRange ∧ ∃ x, (i = .skp x ∨ i = .sknp x) ∧ 15 < s.v[x].toNat)

/-- R96, R104: a RUNNING core always answers a step with a next state. In WAIT_KEY, where R91 calls a step not enabled and R99 says
that a requested one reports the wait again, it answers a next state too: the model's choice, log 1. -/
def Obligations.CoreStepAlwaysAnswers : Prop :=
  ∀ s : State, s.schedule = [] → (∀ c p w, s.runState ≠ .halted c p w) → ∃ t, step s = .next t

/-- R226: HALTED is absorbing. No core step is enabled in it, and no host action but `ReadFramebuffer`, which changes nothing; the
only way out is a launch. -/
def Obligations.HaltedIsAbsorbing : Prop :=
  ∀ (s : State) (c : Cause) (p : Word) (w : Option Word), s.runState = .halted c p w →
    (s.schedule = [] → step s = .fault (.halted c p w)) ∧
    perform .readFramebuffer s = .next s ∧
    ∀ (a : HostAction) (t : State), perform a s = .next t → a = .readFramebuffer ∨ ∃ program, a = .launch program

/-- R235 with R199, action by action: what wakes a waiting core is a KeyPress, what ends the wait otherwise is a Cancel; every
other element survives, but that SetKey writes the keypad and, in `external_tick` mode, Tick the timers. That a requested step
answers a next state is the model's choice of log 1 (R99), that `Step(rnd)` leaves the input `rnd` empty that of log 3, and that a
launch ends a wait too that of log 7. The event, the tick at completion and `Cancel` are the spec's decisions D14, D15, D16. -/
def Obligations.WaitEndsOnlyByKeyPressOrCancel : Prop :=
  ∀ (s : State) (x : RegIdx), s.runState = .waitKey x →
    (s.schedule = [] → step s = .next s) ∧
    ∀ (a : HostAction) (t : State), perform a s = .next t →
      match a with
      | .launch _ => t.runState = .running
      | .step _ => t = { s with rndIn := none }
      | .setKey code pressed =>
        t = { s with keypad := t.keypad } ∧ ∀ c : Fin 16, t.keypad[c] = if c.val = code then pressed else s.keypad[c]
      | .keyPress code =>
        t = { s with v := t.v, pc := s.pc + 2, runState := .running, dt := t.dt, st := t.st } ∧
        t.v[x].toNat = code ∧ (∀ r : RegIdx, r ≠ x → t.v[r] = s.v[r]) ∧
        (s.config.timerMode = .perInstruction → t.dt.toNat = s.dt.toNat - 1 ∧ t.st.toNat = s.st.toNat - 1) ∧
        (s.config.timerMode = .externalTick → t.dt = s.dt ∧ t.st = s.st)
      | .cancel => t = { s with runState := .halted .cancelled s.pc s.fetchWord }
      | .readFramebuffer => t = s
      | .tick =>
        t = { s with dt := t.dt, st := t.st } ∧ s.config.timerMode = .externalTick ∧
        t.dt.toNat = s.dt.toNat - 1 ∧ t.st.toNat = s.st.toNat - 1

/-! ### The host -/

/-- R91: which host actions are enabled in which run state. A `Step` in WAIT_KEY, which R91 calls not enabled, answers the same
state (R99): the model's choice of log 1, the input `rnd` being left empty (log 3). A launch always has a next state (log 7). That
the host acts by such transactions is the spec's decision D23. -/
def Obligations.EnabledActionsFollowTheTable : Prop :=
  (∀ (a : HostAction) (s : State), a.wellFormed = true →
    ((∃ t, perform a s = .next t) ↔
      match a, s.runState with
      | .launch _, _ => True
      | .readFramebuffer, _ => True
      | _, .halted _ _ _ => False
      | .step _, _ => True
      | .setKey _ _, _ => True
      | .keyPress _, .waitKey _ => True
      | .keyPress _, .running => False
      | .cancel, .waitKey _ => True
      | .cancel, .running => False
      | .tick, _ => s.config.timerMode = .externalTick)) ∧
  ∀ (s : State) (x : RegIdx) (rnd : Byte), s.runState = .waitKey x →
    perform (.step rnd) s = .next { s with rndIn := none }

/-- A key code above 15 and a program above 3584 bytes are refused at the interface, and nothing else is: the spec's decisions D28
and D20, the model's log 8. -/
def Obligations.MalformedActionsAreRefused : Prop :=
  ∀ (a : HostAction) (s : State), a.wellFormed = false ↔ ∃ r, perform a s = .refused r

/-- `SetKey` writes one flag and changes nothing else; it does not complete a wait (the spec's decision D14). -/
def Obligations.SetKeyWritesOneFlag : Prop :=
  ∀ (s : State) (code : Fin 16) (pressed : Bool), (∀ c p w, s.runState ≠ .halted c p w) →
    ∃ k, perform (.setKey code.val pressed) s = .next { s with keypad := k } ∧ k[code] = pressed ∧
      ∀ c : Fin 16, c ≠ code → k[c] = s.keypad[c]

/-- `Cancel` in a wait leads to HALTED(Cancelled) with the word at pc, and changes nothing else: the spec's decision D16. -/
def Obligations.CancelEndsTheRun : Prop :=
  ∀ (s : State) (x : RegIdx), s.runState = .waitKey x → s.pc.toNat ≤ 0xFFE →
    perform .cancel s = .next { s with runState := .halted .cancelled s.pc (some (s.mem.readWord s.pc.toNat)) }

/-- `Tick`, in `external_tick` mode, counts both timers down by one, not below 0, and changes nothing else; in `per_instruction`
mode it is not enabled (the alternative mode is the spec's decision D3). -/
def Obligations.HostTickCountsDown : Prop :=
  ∀ s : State,
    (s.config.timerMode = .externalTick → (∀ c p w, s.runState ≠ .halted c p w) →
      ∃ d e, perform .tick s = .next { s with dt := d, st := e } ∧ d.toNat = s.dt.toNat - 1 ∧ e.toNat = s.st.toNat - 1) ∧
    (s.config.timerMode = .perInstruction → perform .tick s = .fault (.notEnabled .tick))

/-- R252: after `Launch(program)` the program's bytes stand from 0x200 onward, every other byte is 0x00 and every other element has
its reset value; the hardware's parameters and the model's record of the host stay (log 7). A program above 3584 bytes is
refused (the spec's decision D20). -/
def Obligations.LaunchLoadsTheProgram : Prop :=
  ∀ (s : State) (program : List Byte),
    (program.length ≤ 3584 →
      ∃ m, perform (.launch program) s = .next { State.reset with
          mem := m, config := s.config, schedule := s.schedule, draws := s.draws } ∧
        (∀ k (h : k < program.length), m.read (0x200 + k) = program[k]) ∧
        ∀ a, a < 0x200 ∨ 0x200 + program.length ≤ a → m.read a = 0) ∧
    (3584 < program.length → perform (.launch program) s = .refused (.programTooLong program.length))

/-- R103: the export is 2048 cells, each 0 or 1, cell `k` being the pixel of column `k mod 64` and row `k / 64` (the order is the
spec's decision D5); taking it changes no state. -/
def Obligations.FramebufferExportIsTheCells : Prop :=
  ∀ s : State, perform .readFramebuffer s = .next s ∧ s.exportFramebuffer.length = 2048 ∧
    ∀ (px : Fin 64) (py : Fin 32),
      s.exportFramebuffer[px.val + 64 * py.val]? = some (if s.pixel px py then 1 else 0)

/-! ### Register and arithmetic instructions -/

/-- R131, R132, R133: load immediate, add immediate (wrapping, no flag), copy register: one register and pc change. -/
def Obligations.LoadsWriteOneRegister : Prop :=
  ∀ (s : State) (x y : RegIdx) (kk : Byte),
    exec (.ldImm x kk) s = .next { s with v := s.v.set x kk, pc := s.pc + 2 } ∧
    exec (.addImm x kk) s =
      .next { s with v := s.v.set x (BitVec.ofNat 8 (s.v[x].toNat + kk.toNat)), pc := s.pc + 2 } ∧
    exec (.ldReg x y) s = .next { s with v := s.v.set x s.v[y], pc := s.pc + 2 }

/-- R134: `8XY4`. The truncated sum goes to V[x] last, so with x = 15 the carry is lost; both registers are read first. The
cases where VF is an operand follow the spec's decision D10. -/
def Obligations.AddRegistersSetsCarry : Prop :=
  ∀ (s : State) (x y : RegIdx),
    let sum := s.v[x].toNat + s.v[y].toNat
    ∃ v, exec (.addReg x y) s = .next { s with v := v, pc := s.pc + 2 } ∧
      v[x].toNat = sum % 256 ∧
      (x ≠ 15 → v[15].toNat = if 255 < sum then 1 else 0) ∧
      ∀ r : RegIdx, r ≠ x → r ≠ 15 → v[r] = s.v[r]

/-- R135: `8XY5`, with the three cases where VF is an operand, which follow the statement order of the spec's decision D10. -/
def Obligations.SubtractSetsNotBorrow : Prop :=
  ∀ (s : State) (x y : RegIdx),
    let a := s.v[x].toNat
    let b := s.v[y].toNat
    let f := if b < a then 1 else 0
    ∃ v, exec (.sub x y) s = .next { s with v := v, pc := s.pc + 2 } ∧
      (x ≠ 15 → v[15].toNat = f) ∧
      (x ≠ 15 → y ≠ 15 → v[x].toNat = (a + 256 - b) % 256) ∧
      (x = 15 → y ≠ 15 → v[15].toNat = (f + 256 - b) % 256) ∧
      (x ≠ 15 → y = 15 → v[x].toNat = (a + 256 - f) % 256) ∧
      (x = 15 → y = 15 → v[15].toNat = 0) ∧
      ∀ r : RegIdx, r ≠ x → r ≠ 15 → v[r] = s.v[r]

/-- R136: `8XY7`, with the three cases where VF is an operand, which follow the statement order of the spec's decision D10. -/
def Obligations.ReverseSubtractSetsNotBorrow : Prop :=
  ∀ (s : State) (x y : RegIdx),
    let a := s.v[x].toNat
    let b := s.v[y].toNat
    let f := if a < b then 1 else 0
    ∃ v, exec (.subn x y) s = .next { s with v := v, pc := s.pc + 2 } ∧
      (x ≠ 15 → v[15].toNat = f) ∧
      (x ≠ 15 → y ≠ 15 → v[x].toNat = (b + 256 - a) % 256) ∧
      (x = 15 → y ≠ 15 → v[15].toNat = (b + 256 - f) % 256) ∧
      (x ≠ 15 → y = 15 → v[x].toNat = (f + 256 - a) % 256) ∧
      (x = 15 → y = 15 → v[15].toNat = 0) ∧
      ∀ r : RegIdx, r ≠ x → r ≠ 15 → v[r] = s.v[r]

/-- R137: `CXKK` writes a random byte masked with kk, and nothing else but pc and the model's own record of the draw (log 3); the
byte is the one the host gives with the step, when it gives one; bits that are 0 in kk are 0 in the result. -/
def Obligations.RandomByteIsMasked : Prop :=
  ∀ (s : State) (x : RegIdx) (kk : Byte), ∃ b r d,
    exec (.rnd x kk) s = .next { s with v := s.v.set x (b &&& kk), pc := s.pc + 2, rndIn := r, draws := d } ∧
    (∀ rnd, s.rndIn = some rnd → b = rnd) ∧ (b &&& kk) &&& ~~~kk = 0

/-! ### Control transfer -/

/-- R114: `1NNN`. -/
def Obligations.JumpSetsPc : Prop :=
  ∀ (s : State) (addr : Addr), exec (.jp addr) s = .next { s with pc := BitVec.ofNat 16 addr.toNat }

/-- R113: `BNNN`. The sum is not reduced to 12 bits, so pc can be as high as 0x10FE (the spec's decision D12). -/
def Obligations.JumpWithOffsetAddsV0 : Prop :=
  ∀ (s : State) (addr : Addr), ∃ target, exec (.jpV0 addr) s = .next { s with pc := target } ∧
    target.toNat = addr.toNat + s.v[0].toNat

/-- R112: `2NNN` pushes its own address; with sp = 16 it is fatal and pushes nothing. -/
def Obligations.CallPushesItsOwnAddress : Prop :=
  ∀ (s : State) (addr : Addr),
    (∀ h : s.sp.val < 16, ∃ t, exec (.call addr) s = .next t ∧ t.pc.toNat = addr.toNat ∧ t.sp.val = s.sp.val + 1 ∧
      t.stack[s.sp.val] = s.pc ∧ (∀ j : Fin 16, j.val ≠ s.sp.val → t.stack[j] = s.stack[j]) ∧
      t = { s with pc := t.pc, sp := t.sp, stack := t.stack }) ∧
    (s.sp.val = 16 →
      exec (.call addr) s =
        .next { s with runState := .halted .stackOverflow s.pc (some (BitVec.ofNat 16 (0x2000 + addr.toNat))) })

/-- R111: `00EE` pops into pc and adds 2, leaving the entry (R27, the spec's decision D27); with sp = 0 it is fatal and changes
nothing else. -/
def Obligations.ReturnGoesAfterTheCall : Prop :=
  ∀ s : State,
    (∀ (k : Nat) (h : s.sp.val = k + 1), ∃ q : Fin 17, q.val = k ∧
      exec .ret s = .next { s with sp := q, pc := s.stack[k]'(by have := s.sp.isLt; omega) + 2 }) ∧
    (s.sp.val = 0 → exec .ret s = .next { s with runState := .halted .stackUnderflow s.pc (some 0x00EE) })

/-- R119: a call whose target is a return lands after the call site, and sp is as before (the spec derives it from R111, R112). -/
def Obligations.CallThenReturnRoundTrip : Prop :=
  ∀ (s : State) (addr : Addr), s.schedule = [] → s.runState = .running → s.sp.val < 16 →
    s.pc.toNat ≤ 0xFFE → s.mem.readWord s.pc.toNat = encode (.call addr) →
    addr.toNat ≤ 0xFFE → s.mem.readWord addr.toNat = encode .ret →
    ∃ t u, step s = .next t ∧ step t = .next u ∧ u.pc = s.pc + 2 ∧
      u = { s with pc := u.pc, stack := u.stack, dt := u.dt, st := u.st } ∧
      ∀ j : Fin 16, j.val ≠ s.sp.val → u.stack[j] = s.stack[j]

/-- R115 to R118: a skip adds 4 to pc when its condition holds, else 2, and changes nothing else. -/
def Obligations.SkipsAdvanceByFourOrTwo : Prop :=
  ∀ (s : State) (x y : RegIdx) (kk : Byte),
    exec (.seImm x kk) s = .next { s with pc := s.pc + if s.v[x] = kk then 4 else 2 } ∧
    exec (.sneImm x kk) s = .next { s with pc := s.pc + if s.v[x] = kk then 2 else 4 } ∧
    exec (.seReg x y) s = .next { s with pc := s.pc + if s.v[x] = s.v[y] then 4 else 2 } ∧
    exec (.sneReg x y) s = .next { s with pc := s.pc + if s.v[x] = s.v[y] then 2 else 4 }

/-! ### Address register and memory -/

/-- R150, R152: `ANNN` and `FX29` (the whole byte times 5) write I and pc. -/
def Obligations.AddressRegisterLoads : Prop :=
  ∀ (s : State) (addr : Addr) (x : RegIdx),
    (∃ w, exec (.ldI addr) s = .next { s with i := w, pc := s.pc + 2 } ∧ w.toNat = addr.toNat) ∧
    ∃ w, exec (.ldF x) s = .next { s with i := w, pc := s.pc + 2 } ∧ w.toNat = s.v[x].toNat * 5

/-- R151: `FX1E` adds modulo 2^16 and sets no flag (the width is the spec's decision D11). -/
def Obligations.AddToAddressRegisterWraps : Prop :=
  ∀ (s : State) (x : RegIdx), ∃ w, exec (.addI x) s = .next { s with i := w, pc := s.pc + 2 } ∧
    w.toNat = (s.i.toNat + s.v[x].toNat) % 65536

/-- R153: `FX33` stores hundreds, tens and units at I, I + 1, I + 2 and leaves every other byte; when I + 2 > 4095 it is fatal
and writes nothing (the spec's decision D7). The premise is the form of memory that every step keeps. -/
def Obligations.StoreDecimalDigits : Prop :=
  ∀ (s : State) (x : RegIdx), s.mem.wf →
    (s.i.toNat + 2 ≤ 4095 →
      ∃ m, exec (.ldB x) s = .next { s with mem := m, pc := s.pc + 2 } ∧
        (m.read s.i.toNat).toNat = s.v[x].toNat / 100 ∧
        (m.read (s.i.toNat + 1)).toNat = s.v[x].toNat / 10 % 10 ∧
        (m.read (s.i.toNat + 2)).toNat = s.v[x].toNat % 10 ∧
        ∀ a, a < s.i.toNat ∨ s.i.toNat + 2 < a → m.read a = s.mem.read a) ∧
    (4095 < s.i.toNat + 2 →
      exec (.ldB x) s =
        .next { s with runState := .halted .memoryOutOfRange s.pc (some (BitVec.ofNat 16 (0xF033 + 256 * x.val))) })

/-- R154: `FX55` stores V0 to VX from I onward, leaves every other byte, and adds X + 1 to I; when I + X > 4095 it is fatal and
changes nothing else (the spec's decision D7). The premise is the form of memory that every step keeps. -/
def Obligations.StoreRegisters : Prop :=
  ∀ (s : State) (x : RegIdx), s.mem.wf →
    (s.i.toNat + x.val ≤ 4095 →
      ∃ m w, exec (.ldMemVx x) s = .next { s with mem := m, i := w, pc := s.pc + 2 } ∧
        w.toNat = s.i.toNat + x.val + 1 ∧
        (∀ j : RegIdx, j ≤ x → m.read (s.i.toNat + j.val) = s.v[j]) ∧
        ∀ a, a < s.i.toNat ∨ s.i.toNat + x.val < a → m.read a = s.mem.read a) ∧
    (4095 < s.i.toNat + x.val →
      exec (.ldMemVx x) s =
        .next { s with runState := .halted .memoryOutOfRange s.pc (some (BitVec.ofNat 16 (0xF055 + 256 * x.val))) })

/-- R155: `FX65` loads V0 to VX from I onward, leaves the registers above VX and memory, and adds X + 1 to I; when I + X > 4095 it
is fatal and changes nothing else (the spec's decision D7). -/
def Obligations.LoadRegisters : Prop :=
  ∀ (s : State) (x : RegIdx),
    (s.i.toNat + x.val ≤ 4095 →
      ∃ v w, exec (.ldVxMem x) s = .next { s with v := v, i := w, pc := s.pc + 2 } ∧
        w.toNat = s.i.toNat + x.val + 1 ∧
        ∀ j : RegIdx, v[j] = if j ≤ x then s.mem.read (s.i.toNat + j.val) else s.v[j]) ∧
    (4095 < s.i.toNat + x.val →
      exec (.ldVxMem x) s =
        .next { s with runState := .halted .memoryOutOfRange s.pc (some (BitVec.ofNat 16 (0xF065 + 256 * x.val))) })

/-- R60: after an `FX55` or an `FX33` that is not fatal, a fetch at any address, that of the very next instruction among them, reads
the stored bytes where the store put some and the old ones elsewhere (the spec derives it; where the stores are fatal is its
decision D7). The premise is the form of memory that every step keeps. -/
def Obligations.StoreIsSeenByNextFetch : Prop :=
  ∀ (s : State) (x : RegIdx), s.mem.wf →
    let stored (a : Nat) (b : Byte) : Prop :=
      (∀ j : RegIdx, j ≤ x → a = s.i.toNat + j.val → b = s.v[j]) ∧
      (a < s.i.toNat ∨ s.i.toNat + x.val < a → b = s.mem.read a)
    let digit (a : Nat) (b : Byte) : Prop :=
      (a = s.i.toNat → b.toNat = s.v[x].toNat / 100) ∧
      (a = s.i.toNat + 1 → b.toNat = s.v[x].toNat / 10 % 10) ∧
      (a = s.i.toNat + 2 → b.toNat = s.v[x].toNat % 10) ∧
      (a < s.i.toNat ∨ s.i.toNat + 2 < a → b = s.mem.read a)
    (s.i.toNat + x.val ≤ 4095 → ∃ t, exec (.ldMemVx x) s = .next t ∧ t.pc = s.pc + 2 ∧
      ∀ p : Word, p.toNat ≤ 0xFFE → ∃ hi lo, { t with pc := p }.fetchWord = some (wordOfBytes hi lo) ∧
        stored p.toNat hi ∧ stored (p.toNat + 1) lo) ∧
    (s.i.toNat + 2 ≤ 4095 → ∃ t, exec (.ldB x) s = .next t ∧ t.pc = s.pc + 2 ∧
      ∀ p : Word, p.toNat ≤ 0xFFE → ∃ hi lo, { t with pc := p }.fetchWord = some (wordOfBytes hi lo) ∧
        digit p.toNat hi ∧ digit (p.toNat + 1) lo)

/-! ### Display -/

/-- R170: `00E0` makes every cell 0 and changes nothing else but pc. -/
def Obligations.ClearScreenZeroesEveryCell : Prop :=
  ∀ s : State, ∃ f, exec .cls s = .next { s with fb := f, pc := s.pc + 2 } ∧ ∀ k < 2048, f.cell k = false

/-- R172 with R173, R174, R175: `DXYN`. A cell changes exactly when a set sprite bit addresses it; VF is 1 exactly when such a cell
was 1, else 0; nothing else changes but pc. When the last row lies above 4095 it is fatal and changes nothing else. Which bit
is left, how the edge wraps, the fault, n = 0 and VF as a coordinate are the spec's decisions D6, D4, D7, D26, D10. -/
def Obligations.DrawSpriteFlipsAndCollides : Prop :=
  ∀ (s : State) (x y : RegIdx) (n : Nibble),
    let lit (r c : Nat) : Prop := (s.mem.read (s.i.toNat + r)).getLsbD (7 - c) = true
    let cell (r c : Nat) : Nat :=
      match s.config.spriteWrap with
      | .perAxis => (s.v[x].toNat + c) % 64 + 64 * ((s.v[y].toNat + r) % 32)
      | .linear => ((s.v[x].toNat + c) + 64 * (s.v[y].toNat + r)) % 2048
    (n.toNat = 0 ∨ s.i.toNat + n.toNat - 1 ≤ 4095 →
      ∃ f b, exec (.drw x y n) s = .next { s with fb := f, v := s.v.set 15 b, pc := s.pc + 2 } ∧
        (∀ k < 2048, f.cell k ≠ s.fb.cell k ↔ ∃ r < n.toNat, ∃ c < 8, lit r c ∧ cell r c = k) ∧
        (b = 1 ∧ (∃ r < n.toNat, ∃ c < 8, lit r c ∧ s.fb.cell (cell r c) = true) ∨
         b = 0 ∧ ∀ r < n.toNat, ∀ c < 8, lit r c → s.fb.cell (cell r c) = false)) ∧
    (1 ≤ n.toNat → 4095 < s.i.toNat + n.toNat - 1 →
      exec (.drw x y n) s =
        .next { s with
          runState := .halted .memoryOutOfRange s.pc
            (some (BitVec.ofNat 16 (0xD000 + 256 * x.val + 16 * y.val + n.toNat))) })

/-- R172 (g): drawn twice at the same position a sprite erases itself. If the first draw met no cell that was 1, the second sets VF
to 1 exactly when the sprite has a set bit; the rule leaves that condition out, and without it the sentence contradicts the
rule's own pseudocode (log 25). -/
def Obligations.DrawTwiceErases : Prop :=
  ∀ (s : State) (x y : RegIdx) (n : Nibble), x ≠ 15 → y ≠ 15 → s.i.toNat + n.toNat ≤ 4096 →
    ∃ t u, exec (.drw x y n) s = .next t ∧ exec (.drw x y n) t = .next u ∧ u.fb = s.fb ∧
      (t.v[15] = 0 → (u.v[15] = 1 ↔ ∃ r < n.toNat, s.mem.read (s.i.toNat + r) ≠ 0))

/-- R174: the two wrap modes draw the same when the sprite starts at column 56 or less (the spec derives it). -/
def Obligations.WrapModesAgreeInsideTheRow : Prop :=
  ∀ (s : State) (x y : RegIdx) (n : Nibble), s.v[x].toNat ≤ 56 →
    exec (.drw x y n) { s with config := { s.config with spriteWrap := .linear } } =
      onNext (fun t => { t with config := { s.config with spriteWrap := .linear } })
        (exec (.drw x y n) { s with config := { s.config with spriteWrap := .perAxis } })

/-! ### Timers and keypad -/

/-- R196, R197: a key skip reads the flag whose code is V[x]; a value above 15 is fatal and changes nothing else (the spec's
decision D9). -/
def Obligations.KeySkipsReadTheHeldFlag : Prop :=
  ∀ (s : State) (x : RegIdx),
    (∀ h : s.v[x].toNat < 16,
      exec (.skp x) s = .next { s with pc := s.pc + if s.keypad[s.v[x].toNat] = true then 4 else 2 } ∧
      exec (.sknp x) s = .next { s with pc := s.pc + if s.keypad[s.v[x].toNat] = true then 2 else 4 }) ∧
    (15 < s.v[x].toNat →
      exec (.skp x) s =
        .next { s with runState := .halted .keyIndexOutOfRange s.pc (some (BitVec.ofNat 16 (0xE09E + 256 * x.val))) } ∧
      exec (.sknp x) s =
        .next { s with runState := .halted .keyIndexOutOfRange s.pc (some (BitVec.ofNat 16 (0xE0A1 + 256 * x.val))) })

/-- R198, R199: `FX0A` only suspends the core; the key press that completes it writes the code to V[x], adds 2 to pc, returns to
RUNNING and ticks the timers in `per_instruction` mode. The event, not the flag, ends the wait, and the one tick is at
completion: the spec's decisions D14 and D15. -/
def Obligations.KeyWaitCompletesByKeyPress : Prop :=
  (∀ (s : State) (x : RegIdx), exec (.ldVxK x) s = .next { s with runState := .waitKey x }) ∧
  ∀ (s : State) (x : RegIdx) (code : Fin 16), s.runState = .waitKey x →
    ∃ b d e, perform (.keyPress code.val) s =
        .next { s with v := s.v.set x b, pc := s.pc + 2, runState := .running, dt := d, st := e } ∧
      b.toNat = code.val ∧
      (s.config.timerMode = .perInstruction → d.toNat = s.dt.toNat - 1 ∧ e.toNat = s.st.toNat - 1) ∧
      (s.config.timerMode = .externalTick → d = s.dt ∧ e = s.st)

/-- R192: `FX07` reads DT before the tick of its step, which then counts DT down. -/
def Obligations.ReadDelayTimerBeforeTheTick : Prop :=
  ∀ (s : State) (x : RegIdx),
    exec (.ldVxDt x) s = .next { s with v := s.v.set x s.dt, pc := s.pc + 2 } ∧
    ∀ t : State, exec (.ldVxDt x) s = .next t → s.runState = .running → s.config.timerMode = .perInstruction →
      t.finishStep.v[x] = s.dt ∧ t.finishStep.dt.toNat = s.dt.toNat - 1

/-- R193, R194: `FX15` and `FX18` write a timer; the tick that follows counts the value just written (the spec derives it). -/
def Obligations.SetTimersThenTick : Prop :=
  ∀ (s : State) (x : RegIdx),
    exec (.ldDtVx x) s = .next { s with dt := s.v[x], pc := s.pc + 2 } ∧
    exec (.ldStVx x) s = .next { s with st := s.v[x], pc := s.pc + 2 } ∧
    ∀ t : State, s.runState = .running → s.config.timerMode = .perInstruction →
      (exec (.ldDtVx x) s = .next t → t.finishStep.dt.toNat = s.v[x].toNat - 1) ∧
      (exec (.ldStVx x) s = .next t → t.finishStep.st.toNat = s.v[x].toNat - 1)

/-- R98, R190: over all instructions, a completed step counts both timers down by one, not below 0, after the instruction's own
write; in `external_tick` mode no step does; a step that suspends or is fatal leaves them (the spec's decisions D3, D15). -/
def Obligations.EveryCompletedStepTicksOnce : Prop :=
  ∀ (s t : State) (i : Instr), s.schedule = [] → s.runState = .running → s.pc.toNat ≤ 0xFFE →
    decode (s.mem.readWord s.pc.toNat) = .instr i → step s = .next t →
    let d := match i with | .ldDtVx x => s.v[x] | _ => s.dt
    let e := match i with | .ldStVx x => s.v[x] | _ => s.st
    (t.runState = .running → s.config.timerMode = .perInstruction →
      t.dt.toNat = d.toNat - 1 ∧ t.st.toNat = e.toNat - 1) ∧
    (t.runState = .running → s.config.timerMode = .externalTick → t.dt = d ∧ t.st = e) ∧
    (t.runState ≠ .running → t.dt = s.dt ∧ t.st = s.st)

/-- R191: a completed step of `per_instruction` mode is a step of `external_tick` mode and one `Tick` (the spec derives it). -/
def Obligations.ExternalTickCoversPerInstruction : Prop :=
  ∀ (s t : State), s.schedule = [] → s.runState = .running → s.config.timerMode = .perInstruction →
    step s = .next t → t.runState = .running →
    ∃ u v, step { s with config := { s.config with timerMode := .externalTick } } = .next u ∧
      perform .tick u = .next v ∧ t = { v with config := s.config }

/-! ### Rules of the whole machine -/

/-- R35: which instructions write which element, `run_state` among them (`FX0A`, or a fatal error, which names the pc of the
instruction); no instruction writes the keypad. Of the model's own fields no instruction writes the schedule (log 2) or the
parameters (log 4), and only `CXKK` the record of drawn bytes (log 3). -/
def Obligations.InstructionsWriteOnlyTheirElements : Prop :=
  ∀ (i : Instr) (s t : State), exec i s = .next t →
    (t.mem ≠ s.mem → ∃ x, i = .ldB x ∨ i = .ldMemVx x) ∧
    (t.v ≠ s.v → ∃ x y kk n, i = .ldImm x kk ∨ i = .addImm x kk ∨ i = .ldReg x y ∨ i = .addReg x y ∨ i = .sub x y ∨
      i = .subn x y ∨ i = .rnd x kk ∨ i = .drw x y n ∨ i = .ldVxDt x ∨ i = .ldVxMem x) ∧
    (t.i ≠ s.i → ∃ x addr, i = .ldI addr ∨ i = .addI x ∨ i = .ldF x ∨ i = .ldMemVx x ∨ i = .ldVxMem x) ∧
    (t.stack ≠ s.stack → ∃ addr, i = .call addr) ∧
    (t.sp ≠ s.sp → i = .ret ∨ ∃ addr, i = .call addr) ∧
    (t.dt ≠ s.dt → ∃ x, i = .ldDtVx x) ∧
    (t.st ≠ s.st → ∃ x, i = .ldStVx x) ∧
    (t.fb ≠ s.fb → i = .cls ∨ ∃ x y n, i = .drw x y n) ∧
    (t.runState ≠ s.runState →
      (∃ x, i = .ldVxK x ∧ t.runState = .waitKey x) ∨ ∃ c, t.runState = .halted c s.pc (some (encode i))) ∧
    (t.draws ≠ s.draws ∨ t.rndIn ≠ s.rndIn → ∃ x kk, i = .rnd x kk) ∧
    t.keypad = s.keypad ∧ t.config = s.config ∧ t.schedule = s.schedule

/-- R24: VF changes only by the four instructions that write it as a flag, or by one that names it as its destination. -/
def Obligations.FlagChangesOnlyByItsWriters : Prop :=
  ∀ (i : Instr) (s t : State), exec i s = .next t → t.v[15] ≠ s.v[15] →
    ∃ x y kk n, i = .addReg x y ∨ i = .sub x y ∨ i = .subn x y ∨ i = .drw x y n ∨
      i = .ldImm 15 kk ∨ i = .addImm 15 kk ∨ i = .ldReg 15 y ∨ i = .rnd 15 kk ∨ i = .ldVxDt 15 ∨ i = .ldVxMem 15

/-- R29, R31: no instruction reads ST, and only `EX9E` and `EXA1` read the keypad flags, so `FX0A` does not (C11, the spec's
decision D14): on states that differ only there an instruction does the same. -/
def Obligations.SoundTimerAndKeypadAreUnread : Prop :=
  ∀ (i : Instr) (s : State),
    (∀ b, (∀ x, i ≠ .ldStVx x) →
      exec i { s with st := b } = onNext (fun t => { t with st := b }) (exec i s)) ∧
    ∀ k, (∀ x, i ≠ .skp x ∧ i ≠ .sknp x) →
      exec i { s with keypad := k } = onNext (fun t => { t with keypad := k }) (exec i s)

/-- R27: a stack entry at or above sp is never read: on states that differ only there an instruction does the same, and the next
states differ only there (that a pop leaves the entry is the spec's decision D27). -/
def Obligations.StaleStackEntriesAreUnobservable : Prop :=
  ∀ (i : Instr) (s t : State) (k : Vector Word 16), (∀ j : Fin 16, j.val < s.sp.val → k[j] = s.stack[j]) →
    exec i s = .next t →
    ∃ l, exec i { s with stack := k } = .next { t with stack := l } ∧
      ∀ j : Fin 16, j.val < t.sp.val → l[j] = t.stack[j]

/-- R105: the end of a run as the spec recommends it, a jump to itself with both timers 0, is a fixed point (the spec derives it;
the predicate is its decision D21). -/
def Obligations.SelfJumpIsAFixedPoint : Prop :=
  ∀ s : State, s.schedule = [] → s.runState = .running → s.pc.toNat ≤ 0xFFE →
    (s.mem.readWord s.pc.toNat).toNat = 0x1000 + s.pc.toNat → s.dt = 0 → s.st = 0 → s.endOfRun = true ∧ step s = .next s

/-- R34: every step, of the core or of the host, keeps the invariant: memory has its one form, pc is at most 0x10FE, every return
address in use is at most 0xFFE, and `run_state` is true of pc and memory. -/
def Obligations.EveryStepKeepsTheInvariant : Prop := ∀ s t : State, s.Inv → step s = .next t → t.Inv

/-- R34: the invariant holds after reset. -/
def Obligations.ResetMeetsTheInvariant : Prop := State.reset.Inv

/-- R36, R250: after reset everything is zero but pc = 0x200, and `run_state` is RUNNING (that clause is the spec's decision D17). -/
def Obligations.ResetZeroesAllButPc : Prop :=
  (∀ a, State.reset.mem.read a = 0) ∧ (∀ x : RegIdx, State.reset.v[x] = 0) ∧ State.reset.i = 0 ∧ State.reset.pc = 0x200 ∧
  (∀ j : Fin 16, State.reset.stack[j] = 0) ∧ State.reset.sp.val = 0 ∧ State.reset.dt = 0 ∧ State.reset.st = 0 ∧
  (∀ k < 2048, State.reset.fb.cell k = false) ∧ (∀ c : Fin 16, State.reset.keypad[c] = false) ∧
  State.reset.runState = .running

/-- The model's interface of log 24: a word placed by `withFetchWord` is what the next step runs, on any state, and the placing
changes no register, timer, stack entry or cell, and no byte but the two of the word. -/
def Obligations.PlacedWordIsWhatRuns : Prop :=
  ∀ (s : State) (w : Nat) (i : Instr), s.mem.wf → decode (tableWord 16 w) = .instr i →
    let t := s.withFetchWord 16 w
    step t = onNext State.finishStep (exec i t) ∧
    t = { s with pc := t.pc, mem := t.mem, runState := .running, schedule := [] } ∧
    (s.pc.toNat ≤ 0xFFE → t.pc = s.pc) ∧
    ∀ a, a < t.pc.toNat ∨ t.pc.toNat + 1 < a → t.mem.read a = s.mem.read a
end

