-- ==== Sys2Proof/Laws/Decode.lean ====
section
/-! SUPPORT. The fields of a packed word, packing the fields of a word, and the opcode table's rows. -/

namespace Sys2Proof

/-! ### Slices and concatenation at any width -/

theorem slice_append_high {a b : Nat} (x : BitVec a) (y : BitVec b) : (x ++ y).extractLsb' b a = x := by
  apply BitVec.eq_of_getLsbD_eq
  intro i hi
  simp [BitVec.getLsbD_append, hi]

theorem slice_append_low {a b : Nat} (x : BitVec a) (y : BitVec b) {k n : Nat} (h : k + n ≤ b) :
    (x ++ y).extractLsb' k n = y.extractLsb' k n := by
  apply BitVec.eq_of_getLsbD_eq
  intro i hi
  simp [BitVec.getLsbD_append, hi, show k + i < b by omega]

theorem slice_all {b : Nat} (y : BitVec b) : y.extractLsb' 0 b = y := by
  apply BitVec.eq_of_getLsbD_eq
  intro i hi
  simp [hi]

theorem append_slices {m : Nat} (w : BitVec m) (k a b : Nat) :
    w.extractLsb' (k + b) a ++ w.extractLsb' k b = w.extractLsb' k (a + b) := by
  apply BitVec.eq_of_getLsbD_eq
  intro i hi
  simp only [BitVec.getLsbD_append, BitVec.getLsbD_extractLsb']
  split
  · next h => simp [h, hi]
  · next h => simp [hi, show i - b < a by omega, show k + b + (i - b) = k + i by omega]

theorem append_and_append {a b : Nat} (x x' : BitVec a) (y y' : BitVec b) :
    (x ++ y) &&& (x' ++ y') = (x &&& x') ++ (y &&& y') := by
  apply BitVec.eq_of_getLsbD_eq
  intro i hi
  simp only [BitVec.getLsbD_and, BitVec.getLsbD_append]
  split <;> rfl

/-! ### Fields of packed words (R72) -/

@[simp] theorem opField_packAddr (op : Nibble) (a : Addr) : opField (packAddr op a) = op := slice_append_high op a

@[simp] theorem addrField_packAddr (op : Nibble) (a : Addr) : addrField (packAddr op a) = a :=
  (slice_append_low op a (Nat.le_refl _)).trans (slice_all a)

theorem packByte_eq (op : Nibble) (x : RegIdx) (kk : Byte) : packByte op x kk = packAddr op (regBits x ++ kk) := rfl

theorem packRegs_eq (op : Nibble) (x y : RegIdx) (n : Nibble) : packRegs op x y n = packByte op x (regBits y ++ n) := rfl

@[simp] theorem opField_packByte (op : Nibble) (x : RegIdx) (kk : Byte) : opField (packByte op x kk) = op :=
  opField_packAddr op _

@[simp] theorem xField_packByte (op : Nibble) (x : RegIdx) (kk : Byte) : xField (packByte op x kk) = x :=
  congrArg BitVec.toFin
    ((slice_append_low op (regBits x ++ kk) (k := 8) (n := 4) (by decide)).trans (slice_append_high (regBits x) kk))

@[simp] theorem kkField_packByte (op : Nibble) (x : RegIdx) (kk : Byte) : kkField (packByte op x kk) = kk :=
  (slice_append_low op (regBits x ++ kk) (k := 0) (n := 8) (by decide)).trans
    ((slice_append_low (regBits x) kk (Nat.le_refl _)).trans (slice_all kk))

@[simp] theorem opField_packRegs (op : Nibble) (x y : RegIdx) (n : Nibble) : opField (packRegs op x y n) = op :=
  opField_packByte op x _

@[simp] theorem xField_packRegs (op : Nibble) (x y : RegIdx) (n : Nibble) : xField (packRegs op x y n) = x :=
  xField_packByte op x _

theorem slice_kkField (w : Word) {k n : Nat} (h : k + n ≤ 8) : (kkField w).extractLsb' k n = w.extractLsb' k n := by
  apply BitVec.eq_of_getLsbD_eq
  intro i hi
  simp [kkField, hi, show k + i < 8 by omega]

@[simp] theorem yField_packRegs (op : Nibble) (x y : RegIdx) (n : Nibble) : yField (packRegs op x y n) = y := by
  have h := slice_kkField (packRegs op x y n) (k := 4) (n := 4) (by decide)
  rw [packRegs_eq, kkField_packByte] at h
  rw [yField, packRegs_eq, ← h]
  exact congrArg BitVec.toFin (slice_append_high (regBits y) n)

@[simp] theorem nField_packRegs (op : Nibble) (x y : RegIdx) (n : Nibble) : nField (packRegs op x y n) = n := by
  have h := slice_kkField (packRegs op x y n) (k := 0) (n := 4) (by decide)
  rw [packRegs_eq, kkField_packByte] at h
  rw [nField, packRegs_eq, ← h]
  exact (slice_append_low (regBits y) n (Nat.le_refl _)).trans (slice_all n)

/-! ### A word is its packed fields -/

theorem packAddr_fields (w : Word) : packAddr (opField w) (addrField w) = w :=
  (append_slices w 0 4 12).trans (slice_all w)

theorem packByte_fields (w : Word) : packByte (opField w) (xField w) (kkField w) = w := by
  have h : regBits (xField w) ++ kkField w = addrField w := append_slices w 0 4 8
  rw [packByte_eq, h]
  exact packAddr_fields w

theorem packRegs_fields (w : Word) : packRegs (opField w) (xField w) (yField w) (nField w) = w := by
  have h : regBits (yField w) ++ nField w = kkField w := append_slices w 0 4 4
  rw [packRegs_eq, h]
  exact packByte_fields w

/-! ### Packed words as numbers (R72) -/

theorem packAddr_eq_ofNat (op : Nibble) (a : Addr) : packAddr op a = BitVec.ofNat 16 (op.toNat * 4096 + a.toNat) := by
  apply BitVec.eq_of_toNat_eq
  have ha := a.isLt
  have hop := op.isLt
  simp only [packAddr, BitVec.toNat_append, BitVec.toNat_ofNat]
  rw [← Nat.shiftLeft_add_eq_or_of_lt ha, Nat.shiftLeft_eq]
  omega

theorem packByte_eq_ofNat (op : Nibble) (x : RegIdx) (kk : Byte) :
    packByte op x kk = BitVec.ofNat 16 (op.toNat * 4096 + 256 * x.val + kk.toNat) := by
  rw [packByte_eq, packAddr_eq_ofNat]
  refine congrArg (BitVec.ofNat 16) ?_
  have h : (regBits x ++ kk).toNat = x.val * 256 + kk.toNat := by
    rw [BitVec.toNat_append, ← Nat.shiftLeft_add_eq_or_of_lt kk.isLt, Nat.shiftLeft_eq]
    rfl
  exact (congrArg (op.toNat * 4096 + ·) h).trans (by omega)

theorem packRegs_eq_ofNat (op : Nibble) (x y : RegIdx) (n : Nibble) :
    packRegs op x y n = BitVec.ofNat 16 (op.toNat * 4096 + 256 * x.val + 16 * y.val + n.toNat) := by
  rw [packRegs_eq, packByte_eq_ofNat]
  refine congrArg (BitVec.ofNat 16) ?_
  have h : (regBits y ++ n).toNat = y.val * 16 + n.toNat := by
    rw [BitVec.toNat_append, ← Nat.shiftLeft_add_eq_or_of_lt n.isLt, Nat.shiftLeft_eq]
    rfl
  exact (congrArg (op.toNat * 4096 + 256 * x.val + ·) h).trans (by omega)

/-! ### Bytes of a word (R50) -/

@[simp] theorem wordOfBytes_hi_lo (w : Word) : wordOfBytes (hiByte w) (loByte w) = w :=
  (append_slices w 0 8 8).trans (slice_all w)

@[simp] theorem hiByte_wordOfBytes (hi lo : Byte) : hiByte (wordOfBytes hi lo) = hi := slice_append_high hi lo

@[simp] theorem loByte_wordOfBytes (hi lo : Byte) : loByte (wordOfBytes hi lo) = lo :=
  (slice_append_low hi lo (Nat.le_refl _)).trans (slice_all lo)

theorem decodeBytes_cons (hi lo : Byte) (rest : List Byte) :
    decodeBytes (hi :: lo :: rest) = (decode (wordOfBytes hi lo), rest) := rfl

/-! ### Masking a packed word (R75) -/

theorem packAddr_mask (op : Nibble) (a : Addr) : packAddr op a &&& 0xF000 = packAddr op 0 :=
  (append_and_append op 0xF a 0).trans (congrArg₂ packAddr BitVec.and_allOnes BitVec.and_zero)

theorem packByte_mask_op (op : Nibble) (x : RegIdx) (kk : Byte) : packByte op x kk &&& 0xF000 = packAddr op 0 :=
  packAddr_mask op _

theorem packByte_mask_kk (op : Nibble) (x : RegIdx) (kk : Byte) : packByte op x kk &&& 0xF0FF = packByte op 0 kk :=
  (append_and_append op 0xF (regBits x ++ kk) ((0 : Nibble) ++ (0xFF : Byte))).trans
    (congrArg₂ packAddr BitVec.and_allOnes
      ((append_and_append (regBits x) 0 kk 0xFF).trans (congrArg₂ (· ++ ·) BitVec.and_zero BitVec.and_allOnes)))

theorem packRegs_mask_op (op : Nibble) (x y : RegIdx) (n : Nibble) : packRegs op x y n &&& 0xF000 = packAddr op 0 :=
  packAddr_mask op _

theorem packRegs_mask_n (op : Nibble) (x y : RegIdx) (n : Nibble) : packRegs op x y n &&& 0xF00F = packRegs op 0 0 n :=
  (append_and_append op 0xF (regBits x ++ (regBits y ++ n)) ((0 : Nibble) ++ ((0 : Nibble) ++ (0xF : Nibble)))).trans
    (congrArg₂ packAddr BitVec.and_allOnes
      ((append_and_append (regBits x) 0 (regBits y ++ n) ((0 : Nibble) ++ (0xF : Nibble))).trans
        (congrArg₂ (· ++ ·) BitVec.and_zero
          ((append_and_append (regBits y) 0 n 0xF).trans (congrArg₂ (· ++ ·) BitVec.and_zero BitVec.and_allOnes)))))

/-- No two rows of the opcode table match one word: they differ in a bit that both fix (R75). -/
theorem rows_disjoint :
    opcodeRows.Pairwise (fun r q => (r.pattern ^^^ q.pattern) &&& (r.mask &&& q.mask) ≠ 0) := by decide

end Sys2Proof
end

