-- ==== Sys2Proof/Laws/Display.lean ====
section
/-! SUPPORT. The laws of the framebuffer: what a cell is after a flip, after a list of cells was drawn, and which cells a sprite
addresses. -/

namespace Sys2Proof.Machine

namespace Framebuffer

theorem cell_eq (f : Framebuffer) {k : Nat} (h : k / 64 < 32) : f.cell k = f[k / 64].getLsbD (k % 64) := by
  simp [cell, h]

/-- What every cell is after one was flipped (R172). -/
theorem cell_flip (f : Framebuffer) {k j : Nat} (hk : k < fbCells) (hj : j < fbCells) :
    (f.flip k).cell j = (f.cell j ^^ decide (j = k)) := by
  have hk' : k / 64 < 32 := by simp only [fbCells] at hk; omega
  have hj' : j / 64 < 32 := by simp only [fbCells] at hj; omega
  have hm : k % 64 < 64 := Nat.mod_lt _ (by decide)
  rw [cell_eq _ hj', cell_eq _ hj']
  by_cases he : k / 64 = j / 64
  · have hjk : (j = k) ↔ (k % 64 = j % 64) := by omega
    simp [flip, he, hj', hjk, BitVec.getLsbD_xor, BitVec.getLsbD_twoPow, hm]
  · have hjk : j ≠ k := fun e => he (by rw [e])
    simp [flip, he, hk', hjk]

/-- Framebuffers with equal cells are equal. -/
theorem ext_cells {f g : Framebuffer} (h : ∀ k < fbCells, f.cell k = g.cell k) : f = g := by
  apply Vector.ext
  intro r hr
  apply BitVec.eq_of_getLsbD_eq
  intro c hc
  simp only [fbHeight] at hr
  simp only [fbWidth] at hc
  have h1 : (c + 64 * r) / 64 = r := by omega
  have h2 : (c + 64 * r) % 64 = c := by omega
  have := h (c + 64 * r) (by simp only [fbCells]; omega)
  rw [cell_eq _ (by omega), cell_eq _ (by omega)] at this
  simpa only [h1, h2] using this

/-- A clear framebuffer has every cell 0 (R170). -/
theorem cell_clear (k : Nat) : clear.cell k = false := by
  unfold clear cell
  by_cases h : k / 64 < 32 <;> simp [h]

/-- One scanline of the framebuffer after the flip, and the others. -/
theorem reset_fb : State.reset.fb = clear := rfl

end Framebuffer

/-! ### Drawing a list of cells (R172) -/

/-- Drawing flips exactly the cells of the list, if none is listed twice. -/
theorem cell_drawCells {cells : List Nat} (hn : cells.Nodup) (hb : ∀ k ∈ cells, k < fbCells) (f : Framebuffer) (hit : Bool)
    {j : Nat} (hj : j < fbCells) : (drawCells cells (f, hit)).1.cell j = (f.cell j ^^ decide (j ∈ cells)) := by
  induction cells generalizing f hit with
  | nil => simp [drawCells]
  | cons k ks ih =>
    obtain ⟨hk, hn⟩ := List.nodup_cons.1 hn
    rw [drawCells, ih hn (fun a ha => hb a (by simp [ha])), Framebuffer.cell_flip f (hb k (by simp)) hj]
    by_cases h : j = k
    · subst h; simp [hk]
    · simp [h]

/-- Drawing reports whether a cell of the list was 1, if none is listed twice. -/
theorem hit_drawCells {cells : List Nat} (hn : cells.Nodup) (hb : ∀ k ∈ cells, k < fbCells) (f : Framebuffer) (hit : Bool) :
    (drawCells cells (f, hit)).2 = (hit || cells.any f.cell) := by
  induction cells generalizing f hit with
  | nil => simp [drawCells]
  | cons k ks ih =>
    obtain ⟨hk, hn⟩ := List.nodup_cons.1 hn
    have hb' : ∀ a ∈ ks, a < fbCells := fun a ha => hb a (by simp [ha])
    have : ks.any (f.flip k).cell = ks.any f.cell := by
      rw [Bool.eq_iff_iff]
      simp only [List.any_eq_true]
      refine exists_congr fun a => and_congr_right fun ha => ?_
      rw [Framebuffer.cell_flip f (hb k (by simp)) (hb' a ha)]
      have : a ≠ k := fun e => hk (e ▸ ha)
      simp [this]
    rw [drawCells, ih hn hb', this, List.any_cons, Bool.or_assoc]

/-! ### The cells of a sprite (R171 to R175) -/

/-- A sprite pixel's cell is one of the 2048, in either wrap mode. -/
theorem spriteCell_lt (w : SpriteWrap) (bx bY r c : Nat) : spriteCell w bx bY r c < fbCells := by
  cases w <;> simp only [spriteCell, fbCells] <;> omega

/-- Two pixels of a sprite never share a cell, in either wrap mode (R172 (c)). -/
theorem spriteCell_inj (w : SpriteWrap) {bx bY r r' c c' : Nat} (hr : r < 15) (hr' : r' < 15) (hc : c < 8) (hc' : c' < 8)
    (h : spriteCell w bx bY r c = spriteCell w bx bY r' c') : r = r' ∧ c = c' := by
  cases w <;> simp only [spriteCell] at h <;> omega

theorem mem_setColumns {row : Byte} {c : Nat} : c ∈ setColumns row ↔ c < 8 ∧ row.getLsbD (7 - c) = true := by
  simp [setColumns]

/-- The cells of a sprite are those of its set bits. -/
theorem mem_spriteCells {s : State} {bx bY : Byte} {n k : Nat} :
    k ∈ s.spriteCells bx bY n ↔ ∃ r < n, ∃ c < 8, (s.mem.read (s.dataAddr r)).getLsbD (7 - c) = true ∧
      spriteCell s.config.spriteWrap bx.toNat bY.toNat r c = k := by
  simp only [State.spriteCells, List.mem_flatMap, List.mem_range, List.mem_map, mem_setColumns, and_assoc]

theorem spriteCells_lt {s : State} {bx bY : Byte} {n : Nat} : ∀ k ∈ s.spriteCells bx bY n, k < fbCells := by
  intro k hk
  obtain ⟨r, -, c, -, -, rfl⟩ := mem_spriteCells.1 hk
  exact spriteCell_lt _ _ _ _ _

theorem spriteCells_nodup {s : State} {bx bY : Byte} {n : Nat} (hn : n ≤ 15) : (s.spriteCells bx bY n).Nodup := by
  unfold State.spriteCells
  rw [List.nodup_flatMap]
  constructor
  · intro r hr
    have hr : r < n := List.mem_range.1 hr
    refine List.Nodup.map_on ?_ (List.Nodup.filter _ List.nodup_range)
    intro c hc c' hc' h
    exact (spriteCell_inj _ (by omega) (by omega) (mem_setColumns.1 hc).1 (mem_setColumns.1 hc').1 h).2
  · refine List.Pairwise.imp_of_mem ?_ (List.nodup_range (n := n))
    intro r r' hr hr' hne
    have hr : r < n := List.mem_range.1 hr
    have hr' : r' < n := List.mem_range.1 hr'
    rw [Function.onFun, List.disjoint_left]
    intro k hk hk'
    obtain ⟨c, hc, rfl⟩ := List.mem_map.1 hk
    obtain ⟨c', hc', h⟩ := List.mem_map.1 hk'
    exact hne (spriteCell_inj _ (by omega) (by omega) (mem_setColumns.1 hc).1 (mem_setColumns.1 hc').1 h.symm).1

end Sys2Proof.Machine
end

