-- ==== Sys2Proof/Laws/Memory.lean ====
section
/-! SUPPORT. The laws of memory: what a read gives after a write, and that every operation keeps the one form of a memory. -/

namespace Sys2Proof.Machine.Memory

/-- An address below every listed one is not listed. -/
theorem read_eq_unlisted {m : Memory} {a : Nat} (h : ∀ c ∈ m, a < c.1) : m.read a = unlisted := by
  induction m with
  | nil => rfl
  | cons c m ih =>
    have hc := h c (by simp)
    obtain ⟨k, b⟩ := c
    have : k ≠ a := by simp only at hc; omega
    simp only [read, this, if_false]
    exact ih fun d hd => h d (by simp [hd])

/-- The head of a well-formed memory lies below the rest. -/
theorem wf_cons {c : Host.Cell} {m : Memory} (h : wf (c :: m)) :
    (∀ d ∈ m, c.1 < d.1) ∧ (c.1 < memSize ∧ c.2 ≠ unlisted) ∧ wf m := by
  obtain ⟨hp, hc⟩ := h
  rw [List.pairwise_cons] at hp
  exact ⟨hp.1, hc c (by simp), hp.2, fun d hd => hc d (by simp [hd])⟩

theorem wf_nil : wf [] := ⟨List.Pairwise.nil, by simp⟩

/-- What every address reads as after a write (R53). -/
theorem read_write {m : Memory} (hm : m.wf) (a : Nat) (b : Byte) (a' : Nat) :
    (m.write a b).read a' = if a' = a then b else m.read a' := by
  induction m with
  | nil =>
    by_cases hb : b = unlisted <;> by_cases ha : a' = a <;> simp_all [write, read, eq_comm]
  | cons c m ih =>
    obtain ⟨k, x⟩ := c
    obtain ⟨hlt, -, hm'⟩ := wf_cons hm
    have ih := ih hm'
    simp only at hlt
    by_cases h1 : a < k
    · have hun : ∀ a'', a'' = a → read m a'' = unlisted := fun a'' e =>
        read_eq_unlisted fun d hd => by have := hlt d hd; omega
      by_cases ha : a' = a
      · have hk : k ≠ a' := by omega
        by_cases hb : b = unlisted
        · simp [write, h1, hb, read, ha, hun a rfl, ha ▸ hk]
        · simp [write, h1, hb, read, ha]
      · by_cases hb : b = unlisted
        · simp [write, h1, hb, read, ha]
        · simp [write, h1, hb, read, ha, Ne.symm ha]
    · by_cases h2 : a = k
      · subst h2
        have hun : read m a = unlisted := read_eq_unlisted hlt
        by_cases ha : a' = a
        · subst ha
          by_cases hb : b = unlisted <;> simp [write, hb, read, hun]
        · by_cases hb : b = unlisted <;> simp [write, hb, read, ha, Ne.symm ha]
      · simp only [write, h1, h2, if_false, read, ih]
        by_cases hk : k = a'
        · have : a' ≠ a := by omega
          simp [hk, this]
        · simp [hk]

theorem read_write_same {m : Memory} (hm : m.wf) (a : Nat) (b : Byte) : (m.write a b).read a = b := by
  simp [read_write hm]

theorem read_write_other {m : Memory} (hm : m.wf) {a a' : Nat} (b : Byte) (h : a' ≠ a) :
    (m.write a b).read a' = m.read a' := by
  simp [read_write hm, h]

/-- A cell of a written memory is the new one or an old one. -/
theorem mem_write {m : Memory} {a : Nat} {b : Byte} {c : Host.Cell} (h : c ∈ m.write a b) :
    (c = (a, b) ∧ b ≠ unlisted) ∨ c ∈ m := by
  induction m with
  | nil =>
    simp only [write] at h
    split at h <;> simp_all
  | cons d m ih =>
    obtain ⟨k, x⟩ := d
    simp only [write] at h
    split at h
    · split at h
      · exact .inr h
      · rcases List.mem_cons.1 h with h | h
        · exact .inl ⟨h, ‹_›⟩
        · exact .inr h
    · split at h
      · split at h
        · exact .inr (List.mem_cons_of_mem _ h)
        · rcases List.mem_cons.1 h with h | h
          · exact .inl ⟨h, ‹_›⟩
          · exact .inr (List.mem_cons_of_mem _ h)
      · rcases List.mem_cons.1 h with h | h
        · exact .inr (h ▸ List.mem_cons_self)
        · rcases ih h with h | h
          · exact .inl h
          · exact .inr (List.mem_cons_of_mem _ h)

/-- A write inside memory keeps the one form. -/
theorem write_wf {m : Memory} (hm : m.wf) {a : Nat} (ha : a < memSize) (b : Byte) : (m.write a b).wf := by
  refine ⟨?_, fun c hc => ?_⟩
  · induction m with
    | nil =>
      simp only [write]
      split <;> simp
    | cons d m ih =>
      obtain ⟨k, x⟩ := d
      obtain ⟨hlt, -, hm'⟩ := wf_cons hm
      have hp := hm.1
      simp only at hlt
      simp only [write]
      split
      · split
        · exact hp
        · refine List.pairwise_cons.2 ⟨fun e he => ?_, hp⟩
          rcases List.mem_cons.1 he with he | he
          · subst he; assumption
          · have := hlt e he; simp only at *; omega
      · split
        · split
          · exact hm'.1
          · refine List.pairwise_cons.2 ⟨fun e he => ?_, hm'.1⟩
            have := hlt e he; simp only at *; omega
        · refine List.pairwise_cons.2 ⟨fun e he => ?_, ih hm'⟩
          rcases mem_write he with ⟨he, -⟩ | he
          · subst he; simp only at *; omega
          · exact hlt e he
  · rcases mem_write hc with ⟨he, hb⟩ | he
    · subst he; exact ⟨ha, hb⟩
    · exact hm.2 c he

/-- Bytes written inside memory keep the one form. -/
theorem writeBytes_wf {m : Memory} (hm : m.wf) {a : Nat} {bs : List Byte} (h : a + bs.length ≤ memSize) :
    (m.writeBytes a bs).wf := by
  induction bs generalizing m a with
  | nil => exact hm
  | cons b bs ih =>
    simp only [List.length_cons] at h
    exact ih (write_wf hm (by omega) b) (by omega)

/-- What every address reads as after bytes were written from `a` onward (R153, R154, R252). -/
theorem read_writeBytes {m : Memory} (hm : m.wf) {a : Nat} {bs : List Byte} (h : a + bs.length ≤ memSize) (a' : Nat) :
    (m.writeBytes a bs).read a' = if a ≤ a' then bs.getD (a' - a) (m.read a') else m.read a' := by
  induction bs generalizing m a with
  | nil => simp [writeBytes]
  | cons b bs ih =>
    simp only [List.length_cons] at h
    rw [writeBytes, ih (write_wf hm (by omega) b) (by omega), read_write hm]
    rcases Nat.lt_trichotomy a' a with h1 | h1 | h1
    · simp [show ¬ a + 1 ≤ a' by omega, show ¬ a ≤ a' by omega, show a' ≠ a by omega]
    · subst h1; simp
    · obtain ⟨d, rfl⟩ : ∃ d, a' = a + 1 + d := ⟨a' - (a + 1), by omega⟩
      have e1 : a + 1 + d - (a + 1) = d := by omega
      have e2 : a + 1 + d - a = d + 1 := by omega
      simp [e1, e2, show a ≤ a + 1 + d by omega, show a + 1 + d ≠ a by omega]

/-- Outside the written bytes every address reads as before. -/
theorem read_writeBytes_other {m : Memory} (hm : m.wf) {a : Nat} {bs : List Byte} (h : a + bs.length ≤ memSize) {a' : Nat}
    (ho : a' < a ∨ a + bs.length ≤ a') : (m.writeBytes a bs).read a' = m.read a' := by
  rw [read_writeBytes hm h]
  split
  · rw [List.getD_eq_default]; omega
  · rfl

/-- Memories in their one form that read the same are the same list. -/
theorem ext {m n : Memory} (hm : m.wf) (hn : n.wf) (h : ∀ a, m.read a = n.read a) : m = n := by
  induction m generalizing n with
  | nil =>
    cases n with
    | nil => rfl
    | cons d n =>
      obtain ⟨-, ⟨-, hne⟩, -⟩ := wf_cons hn
      exact absurd ((h d.1).symm.trans rfl) (by simp [read, hne])
  | cons c m ih =>
    obtain ⟨hc, ⟨-, hcne⟩, hm'⟩ := wf_cons hm
    cases n with
    | nil => exact absurd ((h c.1).trans rfl) (by simp [read, hcne])
    | cons d n =>
      obtain ⟨hd, ⟨-, hdne⟩, hn'⟩ := wf_cons hn
      have key : c.1 = d.1 := by
        rcases Nat.lt_trichotomy c.1 d.1 with hlt | he | hlt
        · have := h c.1
          rw [read_eq_unlisted (m := d :: n) (fun e he => by
            rcases List.mem_cons.1 he with rfl | he
            · exact hlt
            · exact Nat.lt_trans hlt (hd e he))] at this
          exact absurd this (by simp [read, hcne])
        · exact he
        · have := (h d.1).symm
          rw [read_eq_unlisted (m := c :: m) (fun e he => by
            rcases List.mem_cons.1 he with rfl | he
            · exact hlt
            · exact Nat.lt_trans hlt (hc e he))] at this
          exact absurd this (by simp [read, hdne])
      have val : c.2 = d.2 := by simpa [read, key] using h c.1
      have rest : m = n := ih hm' hn' fun a => by
        by_cases ha : a ≤ c.1
        · rw [read_eq_unlisted (fun e he => Nat.lt_of_le_of_lt ha (hc e he)),
            read_eq_unlisted (fun e he => Nat.lt_of_le_of_lt ha (key ▸ hd e he))]
        · have := h a
          simpa [read, show c.1 ≠ a by omega, show d.1 ≠ a by omega] using this
      rw [rest, Prod.ext key val]

/-- The memory after reset has the one form. -/
theorem reset_wf : State.reset.mem.wf := wf_nil

end Sys2Proof.Machine.Memory
end

