-- ==== Sys2Proof/Laws/State.lean ====
section
/-! SUPPORT. One lemma per field per update of the state, so that no proof unfolds a record update. -/

namespace Sys2Proof.Machine.State

/-! ### writeV -/

@[simp] theorem writeV_mem (s : State) (x : RegIdx) (b : Byte) : (s.writeV x b).mem = s.mem := rfl
@[simp] theorem writeV_v (s : State) (x : RegIdx) (b : Byte) : (s.writeV x b).v = s.v.set x b := rfl
@[simp] theorem writeV_i (s : State) (x : RegIdx) (b : Byte) : (s.writeV x b).i = s.i := rfl
@[simp] theorem writeV_pc (s : State) (x : RegIdx) (b : Byte) : (s.writeV x b).pc = s.pc := rfl
@[simp] theorem writeV_stack (s : State) (x : RegIdx) (b : Byte) : (s.writeV x b).stack = s.stack := rfl
@[simp] theorem writeV_sp (s : State) (x : RegIdx) (b : Byte) : (s.writeV x b).sp = s.sp := rfl
@[simp] theorem writeV_dt (s : State) (x : RegIdx) (b : Byte) : (s.writeV x b).dt = s.dt := rfl
@[simp] theorem writeV_st (s : State) (x : RegIdx) (b : Byte) : (s.writeV x b).st = s.st := rfl
@[simp] theorem writeV_fb (s : State) (x : RegIdx) (b : Byte) : (s.writeV x b).fb = s.fb := rfl
@[simp] theorem writeV_keypad (s : State) (x : RegIdx) (b : Byte) : (s.writeV x b).keypad = s.keypad := rfl
@[simp] theorem writeV_runState (s : State) (x : RegIdx) (b : Byte) : (s.writeV x b).runState = s.runState := rfl
@[simp] theorem writeV_config (s : State) (x : RegIdx) (b : Byte) : (s.writeV x b).config = s.config := rfl
@[simp] theorem writeV_schedule (s : State) (x : RegIdx) (b : Byte) : (s.writeV x b).schedule = s.schedule := rfl
@[simp] theorem writeV_rndIn (s : State) (x : RegIdx) (b : Byte) : (s.writeV x b).rndIn = s.rndIn := rfl
@[simp] theorem writeV_draws (s : State) (x : RegIdx) (b : Byte) : (s.writeV x b).draws = s.draws := rfl

/-! ### writeRegs -/

@[simp] theorem writeRegs_mem (s : State) (w : Vector Byte 16) : (s.writeRegs w).mem = s.mem := rfl
@[simp] theorem writeRegs_v (s : State) (w : Vector Byte 16) : (s.writeRegs w).v = w := rfl
@[simp] theorem writeRegs_i (s : State) (w : Vector Byte 16) : (s.writeRegs w).i = s.i := rfl
@[simp] theorem writeRegs_pc (s : State) (w : Vector Byte 16) : (s.writeRegs w).pc = s.pc := rfl
@[simp] theorem writeRegs_stack (s : State) (w : Vector Byte 16) : (s.writeRegs w).stack = s.stack := rfl
@[simp] theorem writeRegs_sp (s : State) (w : Vector Byte 16) : (s.writeRegs w).sp = s.sp := rfl
@[simp] theorem writeRegs_dt (s : State) (w : Vector Byte 16) : (s.writeRegs w).dt = s.dt := rfl
@[simp] theorem writeRegs_st (s : State) (w : Vector Byte 16) : (s.writeRegs w).st = s.st := rfl
@[simp] theorem writeRegs_fb (s : State) (w : Vector Byte 16) : (s.writeRegs w).fb = s.fb := rfl
@[simp] theorem writeRegs_keypad (s : State) (w : Vector Byte 16) : (s.writeRegs w).keypad = s.keypad := rfl
@[simp] theorem writeRegs_runState (s : State) (w : Vector Byte 16) : (s.writeRegs w).runState = s.runState := rfl
@[simp] theorem writeRegs_config (s : State) (w : Vector Byte 16) : (s.writeRegs w).config = s.config := rfl
@[simp] theorem writeRegs_schedule (s : State) (w : Vector Byte 16) : (s.writeRegs w).schedule = s.schedule := rfl
@[simp] theorem writeRegs_rndIn (s : State) (w : Vector Byte 16) : (s.writeRegs w).rndIn = s.rndIn := rfl
@[simp] theorem writeRegs_draws (s : State) (w : Vector Byte 16) : (s.writeRegs w).draws = s.draws := rfl

/-! ### writeI -/

@[simp] theorem writeI_mem (s : State) (w : Word) : (s.writeI w).mem = s.mem := rfl
@[simp] theorem writeI_v (s : State) (w : Word) : (s.writeI w).v = s.v := rfl
@[simp] theorem writeI_i (s : State) (w : Word) : (s.writeI w).i = w := rfl
@[simp] theorem writeI_pc (s : State) (w : Word) : (s.writeI w).pc = s.pc := rfl
@[simp] theorem writeI_stack (s : State) (w : Word) : (s.writeI w).stack = s.stack := rfl
@[simp] theorem writeI_sp (s : State) (w : Word) : (s.writeI w).sp = s.sp := rfl
@[simp] theorem writeI_dt (s : State) (w : Word) : (s.writeI w).dt = s.dt := rfl
@[simp] theorem writeI_st (s : State) (w : Word) : (s.writeI w).st = s.st := rfl
@[simp] theorem writeI_fb (s : State) (w : Word) : (s.writeI w).fb = s.fb := rfl
@[simp] theorem writeI_keypad (s : State) (w : Word) : (s.writeI w).keypad = s.keypad := rfl
@[simp] theorem writeI_runState (s : State) (w : Word) : (s.writeI w).runState = s.runState := rfl
@[simp] theorem writeI_config (s : State) (w : Word) : (s.writeI w).config = s.config := rfl
@[simp] theorem writeI_schedule (s : State) (w : Word) : (s.writeI w).schedule = s.schedule := rfl
@[simp] theorem writeI_rndIn (s : State) (w : Word) : (s.writeI w).rndIn = s.rndIn := rfl
@[simp] theorem writeI_draws (s : State) (w : Word) : (s.writeI w).draws = s.draws := rfl

/-! ### jump -/

@[simp] theorem jump_mem (s : State) (w : Word) : (s.jump w).mem = s.mem := rfl
@[simp] theorem jump_v (s : State) (w : Word) : (s.jump w).v = s.v := rfl
@[simp] theorem jump_i (s : State) (w : Word) : (s.jump w).i = s.i := rfl
@[simp] theorem jump_pc (s : State) (w : Word) : (s.jump w).pc = w := rfl
@[simp] theorem jump_stack (s : State) (w : Word) : (s.jump w).stack = s.stack := rfl
@[simp] theorem jump_sp (s : State) (w : Word) : (s.jump w).sp = s.sp := rfl
@[simp] theorem jump_dt (s : State) (w : Word) : (s.jump w).dt = s.dt := rfl
@[simp] theorem jump_st (s : State) (w : Word) : (s.jump w).st = s.st := rfl
@[simp] theorem jump_fb (s : State) (w : Word) : (s.jump w).fb = s.fb := rfl
@[simp] theorem jump_keypad (s : State) (w : Word) : (s.jump w).keypad = s.keypad := rfl
@[simp] theorem jump_runState (s : State) (w : Word) : (s.jump w).runState = s.runState := rfl
@[simp] theorem jump_config (s : State) (w : Word) : (s.jump w).config = s.config := rfl
@[simp] theorem jump_schedule (s : State) (w : Word) : (s.jump w).schedule = s.schedule := rfl
@[simp] theorem jump_rndIn (s : State) (w : Word) : (s.jump w).rndIn = s.rndIn := rfl
@[simp] theorem jump_draws (s : State) (w : Word) : (s.jump w).draws = s.draws := rfl

/-! ### advance -/

@[simp] theorem advance_mem (s : State) (k : Word) : (s.advance k).mem = s.mem := rfl
@[simp] theorem advance_v (s : State) (k : Word) : (s.advance k).v = s.v := rfl
@[simp] theorem advance_i (s : State) (k : Word) : (s.advance k).i = s.i := rfl
@[simp] theorem advance_pc (s : State) (k : Word) : (s.advance k).pc = s.pc + k := rfl
@[simp] theorem advance_stack (s : State) (k : Word) : (s.advance k).stack = s.stack := rfl
@[simp] theorem advance_sp (s : State) (k : Word) : (s.advance k).sp = s.sp := rfl
@[simp] theorem advance_dt (s : State) (k : Word) : (s.advance k).dt = s.dt := rfl
@[simp] theorem advance_st (s : State) (k : Word) : (s.advance k).st = s.st := rfl
@[simp] theorem advance_fb (s : State) (k : Word) : (s.advance k).fb = s.fb := rfl
@[simp] theorem advance_keypad (s : State) (k : Word) : (s.advance k).keypad = s.keypad := rfl
@[simp] theorem advance_runState (s : State) (k : Word) : (s.advance k).runState = s.runState := rfl
@[simp] theorem advance_config (s : State) (k : Word) : (s.advance k).config = s.config := rfl
@[simp] theorem advance_schedule (s : State) (k : Word) : (s.advance k).schedule = s.schedule := rfl
@[simp] theorem advance_rndIn (s : State) (k : Word) : (s.advance k).rndIn = s.rndIn := rfl
@[simp] theorem advance_draws (s : State) (k : Word) : (s.advance k).draws = s.draws := rfl

/-! ### writeDt -/

@[simp] theorem writeDt_mem (s : State) (b : Byte) : (s.writeDt b).mem = s.mem := rfl
@[simp] theorem writeDt_v (s : State) (b : Byte) : (s.writeDt b).v = s.v := rfl
@[simp] theorem writeDt_i (s : State) (b : Byte) : (s.writeDt b).i = s.i := rfl
@[simp] theorem writeDt_pc (s : State) (b : Byte) : (s.writeDt b).pc = s.pc := rfl
@[simp] theorem writeDt_stack (s : State) (b : Byte) : (s.writeDt b).stack = s.stack := rfl
@[simp] theorem writeDt_sp (s : State) (b : Byte) : (s.writeDt b).sp = s.sp := rfl
@[simp] theorem writeDt_dt (s : State) (b : Byte) : (s.writeDt b).dt = b := rfl
@[simp] theorem writeDt_st (s : State) (b : Byte) : (s.writeDt b).st = s.st := rfl
@[simp] theorem writeDt_fb (s : State) (b : Byte) : (s.writeDt b).fb = s.fb := rfl
@[simp] theorem writeDt_keypad (s : State) (b : Byte) : (s.writeDt b).keypad = s.keypad := rfl
@[simp] theorem writeDt_runState (s : State) (b : Byte) : (s.writeDt b).runState = s.runState := rfl
@[simp] theorem writeDt_config (s : State) (b : Byte) : (s.writeDt b).config = s.config := rfl
@[simp] theorem writeDt_schedule (s : State) (b : Byte) : (s.writeDt b).schedule = s.schedule := rfl
@[simp] theorem writeDt_rndIn (s : State) (b : Byte) : (s.writeDt b).rndIn = s.rndIn := rfl
@[simp] theorem writeDt_draws (s : State) (b : Byte) : (s.writeDt b).draws = s.draws := rfl

/-! ### writeSt -/

@[simp] theorem writeSt_mem (s : State) (b : Byte) : (s.writeSt b).mem = s.mem := rfl
@[simp] theorem writeSt_v (s : State) (b : Byte) : (s.writeSt b).v = s.v := rfl
@[simp] theorem writeSt_i (s : State) (b : Byte) : (s.writeSt b).i = s.i := rfl
@[simp] theorem writeSt_pc (s : State) (b : Byte) : (s.writeSt b).pc = s.pc := rfl
@[simp] theorem writeSt_stack (s : State) (b : Byte) : (s.writeSt b).stack = s.stack := rfl
@[simp] theorem writeSt_sp (s : State) (b : Byte) : (s.writeSt b).sp = s.sp := rfl
@[simp] theorem writeSt_dt (s : State) (b : Byte) : (s.writeSt b).dt = s.dt := rfl
@[simp] theorem writeSt_st (s : State) (b : Byte) : (s.writeSt b).st = b := rfl
@[simp] theorem writeSt_fb (s : State) (b : Byte) : (s.writeSt b).fb = s.fb := rfl
@[simp] theorem writeSt_keypad (s : State) (b : Byte) : (s.writeSt b).keypad = s.keypad := rfl
@[simp] theorem writeSt_runState (s : State) (b : Byte) : (s.writeSt b).runState = s.runState := rfl
@[simp] theorem writeSt_config (s : State) (b : Byte) : (s.writeSt b).config = s.config := rfl
@[simp] theorem writeSt_schedule (s : State) (b : Byte) : (s.writeSt b).schedule = s.schedule := rfl
@[simp] theorem writeSt_rndIn (s : State) (b : Byte) : (s.writeSt b).rndIn = s.rndIn := rfl
@[simp] theorem writeSt_draws (s : State) (b : Byte) : (s.writeSt b).draws = s.draws := rfl

/-! ### writeMem -/

@[simp] theorem writeMem_mem (s : State) (m : Memory) : (s.writeMem m).mem = m := rfl
@[simp] theorem writeMem_v (s : State) (m : Memory) : (s.writeMem m).v = s.v := rfl
@[simp] theorem writeMem_i (s : State) (m : Memory) : (s.writeMem m).i = s.i := rfl
@[simp] theorem writeMem_pc (s : State) (m : Memory) : (s.writeMem m).pc = s.pc := rfl
@[simp] theorem writeMem_stack (s : State) (m : Memory) : (s.writeMem m).stack = s.stack := rfl
@[simp] theorem writeMem_sp (s : State) (m : Memory) : (s.writeMem m).sp = s.sp := rfl
@[simp] theorem writeMem_dt (s : State) (m : Memory) : (s.writeMem m).dt = s.dt := rfl
@[simp] theorem writeMem_st (s : State) (m : Memory) : (s.writeMem m).st = s.st := rfl
@[simp] theorem writeMem_fb (s : State) (m : Memory) : (s.writeMem m).fb = s.fb := rfl
@[simp] theorem writeMem_keypad (s : State) (m : Memory) : (s.writeMem m).keypad = s.keypad := rfl
@[simp] theorem writeMem_runState (s : State) (m : Memory) : (s.writeMem m).runState = s.runState := rfl
@[simp] theorem writeMem_config (s : State) (m : Memory) : (s.writeMem m).config = s.config := rfl
@[simp] theorem writeMem_schedule (s : State) (m : Memory) : (s.writeMem m).schedule = s.schedule := rfl
@[simp] theorem writeMem_rndIn (s : State) (m : Memory) : (s.writeMem m).rndIn = s.rndIn := rfl
@[simp] theorem writeMem_draws (s : State) (m : Memory) : (s.writeMem m).draws = s.draws := rfl

/-! ### writeFb -/

@[simp] theorem writeFb_mem (s : State) (f : Framebuffer) : (s.writeFb f).mem = s.mem := rfl
@[simp] theorem writeFb_v (s : State) (f : Framebuffer) : (s.writeFb f).v = s.v := rfl
@[simp] theorem writeFb_i (s : State) (f : Framebuffer) : (s.writeFb f).i = s.i := rfl
@[simp] theorem writeFb_pc (s : State) (f : Framebuffer) : (s.writeFb f).pc = s.pc := rfl
@[simp] theorem writeFb_stack (s : State) (f : Framebuffer) : (s.writeFb f).stack = s.stack := rfl
@[simp] theorem writeFb_sp (s : State) (f : Framebuffer) : (s.writeFb f).sp = s.sp := rfl
@[simp] theorem writeFb_dt (s : State) (f : Framebuffer) : (s.writeFb f).dt = s.dt := rfl
@[simp] theorem writeFb_st (s : State) (f : Framebuffer) : (s.writeFb f).st = s.st := rfl
@[simp] theorem writeFb_fb (s : State) (f : Framebuffer) : (s.writeFb f).fb = f := rfl
@[simp] theorem writeFb_keypad (s : State) (f : Framebuffer) : (s.writeFb f).keypad = s.keypad := rfl
@[simp] theorem writeFb_runState (s : State) (f : Framebuffer) : (s.writeFb f).runState = s.runState := rfl
@[simp] theorem writeFb_config (s : State) (f : Framebuffer) : (s.writeFb f).config = s.config := rfl
@[simp] theorem writeFb_schedule (s : State) (f : Framebuffer) : (s.writeFb f).schedule = s.schedule := rfl
@[simp] theorem writeFb_rndIn (s : State) (f : Framebuffer) : (s.writeFb f).rndIn = s.rndIn := rfl
@[simp] theorem writeFb_draws (s : State) (f : Framebuffer) : (s.writeFb f).draws = s.draws := rfl

/-! ### writeKey -/

@[simp] theorem writeKey_mem (s : State) (c : Fin 16) (p : Bool) : (s.writeKey c p).mem = s.mem := rfl
@[simp] theorem writeKey_v (s : State) (c : Fin 16) (p : Bool) : (s.writeKey c p).v = s.v := rfl
@[simp] theorem writeKey_i (s : State) (c : Fin 16) (p : Bool) : (s.writeKey c p).i = s.i := rfl
@[simp] theorem writeKey_pc (s : State) (c : Fin 16) (p : Bool) : (s.writeKey c p).pc = s.pc := rfl
@[simp] theorem writeKey_stack (s : State) (c : Fin 16) (p : Bool) : (s.writeKey c p).stack = s.stack := rfl
@[simp] theorem writeKey_sp (s : State) (c : Fin 16) (p : Bool) : (s.writeKey c p).sp = s.sp := rfl
@[simp] theorem writeKey_dt (s : State) (c : Fin 16) (p : Bool) : (s.writeKey c p).dt = s.dt := rfl
@[simp] theorem writeKey_st (s : State) (c : Fin 16) (p : Bool) : (s.writeKey c p).st = s.st := rfl
@[simp] theorem writeKey_fb (s : State) (c : Fin 16) (p : Bool) : (s.writeKey c p).fb = s.fb := rfl
@[simp] theorem writeKey_keypad (s : State) (c : Fin 16) (p : Bool) : (s.writeKey c p).keypad = s.keypad.set c p := rfl
@[simp] theorem writeKey_runState (s : State) (c : Fin 16) (p : Bool) : (s.writeKey c p).runState = s.runState := rfl
@[simp] theorem writeKey_config (s : State) (c : Fin 16) (p : Bool) : (s.writeKey c p).config = s.config := rfl
@[simp] theorem writeKey_schedule (s : State) (c : Fin 16) (p : Bool) : (s.writeKey c p).schedule = s.schedule := rfl
@[simp] theorem writeKey_rndIn (s : State) (c : Fin 16) (p : Bool) : (s.writeKey c p).rndIn = s.rndIn := rfl
@[simp] theorem writeKey_draws (s : State) (c : Fin 16) (p : Bool) : (s.writeKey c p).draws = s.draws := rfl

/-! ### setRun -/

@[simp] theorem setRun_mem (s : State) (r : RunState) : (s.setRun r).mem = s.mem := rfl
@[simp] theorem setRun_v (s : State) (r : RunState) : (s.setRun r).v = s.v := rfl
@[simp] theorem setRun_i (s : State) (r : RunState) : (s.setRun r).i = s.i := rfl
@[simp] theorem setRun_pc (s : State) (r : RunState) : (s.setRun r).pc = s.pc := rfl
@[simp] theorem setRun_stack (s : State) (r : RunState) : (s.setRun r).stack = s.stack := rfl
@[simp] theorem setRun_sp (s : State) (r : RunState) : (s.setRun r).sp = s.sp := rfl
@[simp] theorem setRun_dt (s : State) (r : RunState) : (s.setRun r).dt = s.dt := rfl
@[simp] theorem setRun_st (s : State) (r : RunState) : (s.setRun r).st = s.st := rfl
@[simp] theorem setRun_fb (s : State) (r : RunState) : (s.setRun r).fb = s.fb := rfl
@[simp] theorem setRun_keypad (s : State) (r : RunState) : (s.setRun r).keypad = s.keypad := rfl
@[simp] theorem setRun_runState (s : State) (r : RunState) : (s.setRun r).runState = r := rfl
@[simp] theorem setRun_config (s : State) (r : RunState) : (s.setRun r).config = s.config := rfl
@[simp] theorem setRun_schedule (s : State) (r : RunState) : (s.setRun r).schedule = s.schedule := rfl
@[simp] theorem setRun_rndIn (s : State) (r : RunState) : (s.setRun r).rndIn = s.rndIn := rfl
@[simp] theorem setRun_draws (s : State) (r : RunState) : (s.setRun r).draws = s.draws := rfl

/-! ### push -/

@[simp] theorem push_mem (s : State) (a : Word) (h : s.sp.val < stackDepth) : (s.push a h).mem = s.mem := rfl
@[simp] theorem push_v (s : State) (a : Word) (h : s.sp.val < stackDepth) : (s.push a h).v = s.v := rfl
@[simp] theorem push_i (s : State) (a : Word) (h : s.sp.val < stackDepth) : (s.push a h).i = s.i := rfl
@[simp] theorem push_pc (s : State) (a : Word) (h : s.sp.val < stackDepth) : (s.push a h).pc = s.pc := rfl
@[simp] theorem push_stack (s : State) (a : Word) (h : s.sp.val < stackDepth) : (s.push a h).stack = s.stack.set s.sp.val a := rfl
@[simp] theorem push_sp (s : State) (a : Word) (h : s.sp.val < stackDepth) : (s.push a h).sp = ⟨s.sp.val + 1, Nat.succ_lt_succ h⟩ := rfl
@[simp] theorem push_dt (s : State) (a : Word) (h : s.sp.val < stackDepth) : (s.push a h).dt = s.dt := rfl
@[simp] theorem push_st (s : State) (a : Word) (h : s.sp.val < stackDepth) : (s.push a h).st = s.st := rfl
@[simp] theorem push_fb (s : State) (a : Word) (h : s.sp.val < stackDepth) : (s.push a h).fb = s.fb := rfl
@[simp] theorem push_keypad (s : State) (a : Word) (h : s.sp.val < stackDepth) : (s.push a h).keypad = s.keypad := rfl
@[simp] theorem push_runState (s : State) (a : Word) (h : s.sp.val < stackDepth) : (s.push a h).runState = s.runState := rfl
@[simp] theorem push_config (s : State) (a : Word) (h : s.sp.val < stackDepth) : (s.push a h).config = s.config := rfl
@[simp] theorem push_schedule (s : State) (a : Word) (h : s.sp.val < stackDepth) : (s.push a h).schedule = s.schedule := rfl
@[simp] theorem push_rndIn (s : State) (a : Word) (h : s.sp.val < stackDepth) : (s.push a h).rndIn = s.rndIn := rfl
@[simp] theorem push_draws (s : State) (a : Word) (h : s.sp.val < stackDepth) : (s.push a h).draws = s.draws := rfl

/-! ### drop -/

@[simp] theorem drop_mem (s : State) : s.drop.mem = s.mem := rfl
@[simp] theorem drop_v (s : State) : s.drop.v = s.v := rfl
@[simp] theorem drop_i (s : State) : s.drop.i = s.i := rfl
@[simp] theorem drop_pc (s : State) : s.drop.pc = s.pc := rfl
@[simp] theorem drop_stack (s : State) : s.drop.stack = s.stack := rfl
@[simp] theorem drop_sp (s : State) : s.drop.sp = ⟨s.sp.val - 1, by have := s.sp.isLt; omega⟩ := rfl
@[simp] theorem drop_dt (s : State) : s.drop.dt = s.dt := rfl
@[simp] theorem drop_st (s : State) : s.drop.st = s.st := rfl
@[simp] theorem drop_fb (s : State) : s.drop.fb = s.fb := rfl
@[simp] theorem drop_keypad (s : State) : s.drop.keypad = s.keypad := rfl
@[simp] theorem drop_runState (s : State) : s.drop.runState = s.runState := rfl
@[simp] theorem drop_config (s : State) : s.drop.config = s.config := rfl
@[simp] theorem drop_schedule (s : State) : s.drop.schedule = s.schedule := rfl
@[simp] theorem drop_rndIn (s : State) : s.drop.rndIn = s.rndIn := rfl
@[simp] theorem drop_draws (s : State) : s.drop.draws = s.draws := rfl

/-! ### raise -/

@[simp] theorem raise_mem (s : State) (c : Cause) (w : Option Word) : (s.raise c w).mem = s.mem := rfl
@[simp] theorem raise_v (s : State) (c : Cause) (w : Option Word) : (s.raise c w).v = s.v := rfl
@[simp] theorem raise_i (s : State) (c : Cause) (w : Option Word) : (s.raise c w).i = s.i := rfl
@[simp] theorem raise_pc (s : State) (c : Cause) (w : Option Word) : (s.raise c w).pc = s.pc := rfl
@[simp] theorem raise_stack (s : State) (c : Cause) (w : Option Word) : (s.raise c w).stack = s.stack := rfl
@[simp] theorem raise_sp (s : State) (c : Cause) (w : Option Word) : (s.raise c w).sp = s.sp := rfl
@[simp] theorem raise_dt (s : State) (c : Cause) (w : Option Word) : (s.raise c w).dt = s.dt := rfl
@[simp] theorem raise_st (s : State) (c : Cause) (w : Option Word) : (s.raise c w).st = s.st := rfl
@[simp] theorem raise_fb (s : State) (c : Cause) (w : Option Word) : (s.raise c w).fb = s.fb := rfl
@[simp] theorem raise_keypad (s : State) (c : Cause) (w : Option Word) : (s.raise c w).keypad = s.keypad := rfl
@[simp] theorem raise_runState (s : State) (c : Cause) (w : Option Word) : (s.raise c w).runState = .halted c s.pc w := rfl
@[simp] theorem raise_config (s : State) (c : Cause) (w : Option Word) : (s.raise c w).config = s.config := rfl
@[simp] theorem raise_schedule (s : State) (c : Cause) (w : Option Word) : (s.raise c w).schedule = s.schedule := rfl
@[simp] theorem raise_rndIn (s : State) (c : Cause) (w : Option Word) : (s.raise c w).rndIn = s.rndIn := rfl
@[simp] theorem raise_draws (s : State) (c : Cause) (w : Option Word) : (s.raise c w).draws = s.draws := rfl

/-! ### timerTick -/

@[simp] theorem timerTick_mem (s : State) : s.timerTick.mem = s.mem := rfl
@[simp] theorem timerTick_v (s : State) : s.timerTick.v = s.v := rfl
@[simp] theorem timerTick_i (s : State) : s.timerTick.i = s.i := rfl
@[simp] theorem timerTick_pc (s : State) : s.timerTick.pc = s.pc := rfl
@[simp] theorem timerTick_stack (s : State) : s.timerTick.stack = s.stack := rfl
@[simp] theorem timerTick_sp (s : State) : s.timerTick.sp = s.sp := rfl
@[simp] theorem timerTick_dt (s : State) : s.timerTick.dt = countDown s.dt := rfl
@[simp] theorem timerTick_st (s : State) : s.timerTick.st = countDown s.st := rfl
@[simp] theorem timerTick_fb (s : State) : s.timerTick.fb = s.fb := rfl
@[simp] theorem timerTick_keypad (s : State) : s.timerTick.keypad = s.keypad := rfl
@[simp] theorem timerTick_runState (s : State) : s.timerTick.runState = s.runState := rfl
@[simp] theorem timerTick_config (s : State) : s.timerTick.config = s.config := rfl
@[simp] theorem timerTick_schedule (s : State) : s.timerTick.schedule = s.schedule := rfl
@[simp] theorem timerTick_rndIn (s : State) : s.timerTick.rndIn = s.rndIn := rfl
@[simp] theorem timerTick_draws (s : State) : s.timerTick.draws = s.draws := rfl

/-! ### setFlag -/

@[simp] theorem setFlag_mem (s : State) (c : Bool) : (s.setFlag c).mem = s.mem := rfl
@[simp] theorem setFlag_v (s : State) (c : Bool) : (s.setFlag c).v = s.v.set vf (flagByte c) := rfl
@[simp] theorem setFlag_i (s : State) (c : Bool) : (s.setFlag c).i = s.i := rfl
@[simp] theorem setFlag_pc (s : State) (c : Bool) : (s.setFlag c).pc = s.pc := rfl
@[simp] theorem setFlag_stack (s : State) (c : Bool) : (s.setFlag c).stack = s.stack := rfl
@[simp] theorem setFlag_sp (s : State) (c : Bool) : (s.setFlag c).sp = s.sp := rfl
@[simp] theorem setFlag_dt (s : State) (c : Bool) : (s.setFlag c).dt = s.dt := rfl
@[simp] theorem setFlag_st (s : State) (c : Bool) : (s.setFlag c).st = s.st := rfl
@[simp] theorem setFlag_fb (s : State) (c : Bool) : (s.setFlag c).fb = s.fb := rfl
@[simp] theorem setFlag_keypad (s : State) (c : Bool) : (s.setFlag c).keypad = s.keypad := rfl
@[simp] theorem setFlag_runState (s : State) (c : Bool) : (s.setFlag c).runState = s.runState := rfl
@[simp] theorem setFlag_config (s : State) (c : Bool) : (s.setFlag c).config = s.config := rfl
@[simp] theorem setFlag_schedule (s : State) (c : Bool) : (s.setFlag c).schedule = s.schedule := rfl
@[simp] theorem setFlag_rndIn (s : State) (c : Bool) : (s.setFlag c).rndIn = s.rndIn := rfl
@[simp] theorem setFlag_draws (s : State) (c : Bool) : (s.setFlag c).draws = s.draws := rfl

/-! ### setSchedule -/

@[simp] theorem setSchedule_mem (s : State) (l : List HostAction) : (s.setSchedule l).mem = s.mem := rfl
@[simp] theorem setSchedule_v (s : State) (l : List HostAction) : (s.setSchedule l).v = s.v := rfl
@[simp] theorem setSchedule_i (s : State) (l : List HostAction) : (s.setSchedule l).i = s.i := rfl
@[simp] theorem setSchedule_pc (s : State) (l : List HostAction) : (s.setSchedule l).pc = s.pc := rfl
@[simp] theorem setSchedule_stack (s : State) (l : List HostAction) : (s.setSchedule l).stack = s.stack := rfl
@[simp] theorem setSchedule_sp (s : State) (l : List HostAction) : (s.setSchedule l).sp = s.sp := rfl
@[simp] theorem setSchedule_dt (s : State) (l : List HostAction) : (s.setSchedule l).dt = s.dt := rfl
@[simp] theorem setSchedule_st (s : State) (l : List HostAction) : (s.setSchedule l).st = s.st := rfl
@[simp] theorem setSchedule_fb (s : State) (l : List HostAction) : (s.setSchedule l).fb = s.fb := rfl
@[simp] theorem setSchedule_keypad (s : State) (l : List HostAction) : (s.setSchedule l).keypad = s.keypad := rfl
@[simp] theorem setSchedule_runState (s : State) (l : List HostAction) : (s.setSchedule l).runState = s.runState := rfl
@[simp] theorem setSchedule_config (s : State) (l : List HostAction) : (s.setSchedule l).config = s.config := rfl
@[simp] theorem setSchedule_schedule (s : State) (l : List HostAction) : (s.setSchedule l).schedule = l := rfl
@[simp] theorem setSchedule_rndIn (s : State) (l : List HostAction) : (s.setSchedule l).rndIn = s.rndIn := rfl
@[simp] theorem setSchedule_draws (s : State) (l : List HostAction) : (s.setSchedule l).draws = s.draws := rfl

/-! ### setRndIn -/

@[simp] theorem setRndIn_mem (s : State) (b : Option Byte) : (s.setRndIn b).mem = s.mem := rfl
@[simp] theorem setRndIn_v (s : State) (b : Option Byte) : (s.setRndIn b).v = s.v := rfl
@[simp] theorem setRndIn_i (s : State) (b : Option Byte) : (s.setRndIn b).i = s.i := rfl
@[simp] theorem setRndIn_pc (s : State) (b : Option Byte) : (s.setRndIn b).pc = s.pc := rfl
@[simp] theorem setRndIn_stack (s : State) (b : Option Byte) : (s.setRndIn b).stack = s.stack := rfl
@[simp] theorem setRndIn_sp (s : State) (b : Option Byte) : (s.setRndIn b).sp = s.sp := rfl
@[simp] theorem setRndIn_dt (s : State) (b : Option Byte) : (s.setRndIn b).dt = s.dt := rfl
@[simp] theorem setRndIn_st (s : State) (b : Option Byte) : (s.setRndIn b).st = s.st := rfl
@[simp] theorem setRndIn_fb (s : State) (b : Option Byte) : (s.setRndIn b).fb = s.fb := rfl
@[simp] theorem setRndIn_keypad (s : State) (b : Option Byte) : (s.setRndIn b).keypad = s.keypad := rfl
@[simp] theorem setRndIn_runState (s : State) (b : Option Byte) : (s.setRndIn b).runState = s.runState := rfl
@[simp] theorem setRndIn_config (s : State) (b : Option Byte) : (s.setRndIn b).config = s.config := rfl
@[simp] theorem setRndIn_schedule (s : State) (b : Option Byte) : (s.setRndIn b).schedule = s.schedule := rfl
@[simp] theorem setRndIn_rndIn (s : State) (b : Option Byte) : (s.setRndIn b).rndIn = b := rfl
@[simp] theorem setRndIn_draws (s : State) (b : Option Byte) : (s.setRndIn b).draws = s.draws := rfl

/-! ### skipIf: what it leaves alone -/

@[simp] theorem skipIf_mem (s : State) (c : Bool) : (s.skipIf c).mem = s.mem := by cases c <;> rfl
@[simp] theorem skipIf_v (s : State) (c : Bool) : (s.skipIf c).v = s.v := by cases c <;> rfl
@[simp] theorem skipIf_i (s : State) (c : Bool) : (s.skipIf c).i = s.i := by cases c <;> rfl
@[simp] theorem skipIf_stack (s : State) (c : Bool) : (s.skipIf c).stack = s.stack := by cases c <;> rfl
@[simp] theorem skipIf_sp (s : State) (c : Bool) : (s.skipIf c).sp = s.sp := by cases c <;> rfl
@[simp] theorem skipIf_dt (s : State) (c : Bool) : (s.skipIf c).dt = s.dt := by cases c <;> rfl
@[simp] theorem skipIf_st (s : State) (c : Bool) : (s.skipIf c).st = s.st := by cases c <;> rfl
@[simp] theorem skipIf_fb (s : State) (c : Bool) : (s.skipIf c).fb = s.fb := by cases c <;> rfl
@[simp] theorem skipIf_keypad (s : State) (c : Bool) : (s.skipIf c).keypad = s.keypad := by cases c <;> rfl
@[simp] theorem skipIf_runState (s : State) (c : Bool) : (s.skipIf c).runState = s.runState := by cases c <;> rfl
@[simp] theorem skipIf_config (s : State) (c : Bool) : (s.skipIf c).config = s.config := by cases c <;> rfl
@[simp] theorem skipIf_schedule (s : State) (c : Bool) : (s.skipIf c).schedule = s.schedule := by cases c <;> rfl
@[simp] theorem skipIf_rndIn (s : State) (c : Bool) : (s.skipIf c).rndIn = s.rndIn := by cases c <;> rfl
@[simp] theorem skipIf_draws (s : State) (c : Bool) : (s.skipIf c).draws = s.draws := by cases c <;> rfl

/-! ### tickIfPerInstruction: what it leaves alone -/

@[simp] theorem tickIfPerInstruction_mem (s : State) : s.tickIfPerInstruction.mem = s.mem := by unfold State.tickIfPerInstruction; split <;> rfl
@[simp] theorem tickIfPerInstruction_v (s : State) : s.tickIfPerInstruction.v = s.v := by unfold State.tickIfPerInstruction; split <;> rfl
@[simp] theorem tickIfPerInstruction_i (s : State) : s.tickIfPerInstruction.i = s.i := by unfold State.tickIfPerInstruction; split <;> rfl
@[simp] theorem tickIfPerInstruction_pc (s : State) : s.tickIfPerInstruction.pc = s.pc := by unfold State.tickIfPerInstruction; split <;> rfl
@[simp] theorem tickIfPerInstruction_stack (s : State) : s.tickIfPerInstruction.stack = s.stack := by unfold State.tickIfPerInstruction; split <;> rfl
@[simp] theorem tickIfPerInstruction_sp (s : State) : s.tickIfPerInstruction.sp = s.sp := by unfold State.tickIfPerInstruction; split <;> rfl
@[simp] theorem tickIfPerInstruction_fb (s : State) : s.tickIfPerInstruction.fb = s.fb := by unfold State.tickIfPerInstruction; split <;> rfl
@[simp] theorem tickIfPerInstruction_keypad (s : State) : s.tickIfPerInstruction.keypad = s.keypad := by unfold State.tickIfPerInstruction; split <;> rfl
@[simp] theorem tickIfPerInstruction_runState (s : State) : s.tickIfPerInstruction.runState = s.runState := by unfold State.tickIfPerInstruction; split <;> rfl
@[simp] theorem tickIfPerInstruction_config (s : State) : s.tickIfPerInstruction.config = s.config := by unfold State.tickIfPerInstruction; split <;> rfl
@[simp] theorem tickIfPerInstruction_schedule (s : State) : s.tickIfPerInstruction.schedule = s.schedule := by unfold State.tickIfPerInstruction; split <;> rfl
@[simp] theorem tickIfPerInstruction_rndIn (s : State) : s.tickIfPerInstruction.rndIn = s.rndIn := by unfold State.tickIfPerInstruction; split <;> rfl
@[simp] theorem tickIfPerInstruction_draws (s : State) : s.tickIfPerInstruction.draws = s.draws := by unfold State.tickIfPerInstruction; split <;> rfl

/-! ### finishStep: what it leaves alone -/

@[simp] theorem finishStep_mem (s : State) : s.finishStep.mem = s.mem := by unfold State.finishStep; split <;> simp
@[simp] theorem finishStep_v (s : State) : s.finishStep.v = s.v := by unfold State.finishStep; split <;> simp
@[simp] theorem finishStep_i (s : State) : s.finishStep.i = s.i := by unfold State.finishStep; split <;> simp
@[simp] theorem finishStep_pc (s : State) : s.finishStep.pc = s.pc := by unfold State.finishStep; split <;> simp
@[simp] theorem finishStep_stack (s : State) : s.finishStep.stack = s.stack := by unfold State.finishStep; split <;> simp
@[simp] theorem finishStep_sp (s : State) : s.finishStep.sp = s.sp := by unfold State.finishStep; split <;> simp
@[simp] theorem finishStep_fb (s : State) : s.finishStep.fb = s.fb := by unfold State.finishStep; split <;> simp
@[simp] theorem finishStep_keypad (s : State) : s.finishStep.keypad = s.keypad := by unfold State.finishStep; split <;> simp
@[simp] theorem finishStep_runState (s : State) : s.finishStep.runState = s.runState := by unfold State.finishStep; split <;> simp
@[simp] theorem finishStep_config (s : State) : s.finishStep.config = s.config := by unfold State.finishStep; split <;> simp
@[simp] theorem finishStep_schedule (s : State) : s.finishStep.schedule = s.schedule := by unfold State.finishStep; split <;> simp
@[simp] theorem finishStep_rndIn (s : State) : s.finishStep.rndIn = s.rndIn := by unfold State.finishStep; split <;> simp
@[simp] theorem finishStep_draws (s : State) : s.finishStep.draws = s.draws := by unfold State.finishStep; split <;> simp

/-! ### useRnd: what it leaves alone -/

@[simp] theorem useRnd_mem (s : State) : s.useRnd.mem = s.mem := by unfold State.useRnd; split <;> rfl
@[simp] theorem useRnd_v (s : State) : s.useRnd.v = s.v := by unfold State.useRnd; split <;> rfl
@[simp] theorem useRnd_i (s : State) : s.useRnd.i = s.i := by unfold State.useRnd; split <;> rfl
@[simp] theorem useRnd_pc (s : State) : s.useRnd.pc = s.pc := by unfold State.useRnd; split <;> rfl
@[simp] theorem useRnd_stack (s : State) : s.useRnd.stack = s.stack := by unfold State.useRnd; split <;> rfl
@[simp] theorem useRnd_sp (s : State) : s.useRnd.sp = s.sp := by unfold State.useRnd; split <;> rfl
@[simp] theorem useRnd_dt (s : State) : s.useRnd.dt = s.dt := by unfold State.useRnd; split <;> rfl
@[simp] theorem useRnd_st (s : State) : s.useRnd.st = s.st := by unfold State.useRnd; split <;> rfl
@[simp] theorem useRnd_fb (s : State) : s.useRnd.fb = s.fb := by unfold State.useRnd; split <;> rfl
@[simp] theorem useRnd_keypad (s : State) : s.useRnd.keypad = s.keypad := by unfold State.useRnd; split <;> rfl
@[simp] theorem useRnd_runState (s : State) : s.useRnd.runState = s.runState := by unfold State.useRnd; split <;> rfl
@[simp] theorem useRnd_config (s : State) : s.useRnd.config = s.config := by unfold State.useRnd; split <;> rfl
@[simp] theorem useRnd_schedule (s : State) : s.useRnd.schedule = s.schedule := by unfold State.useRnd; split <;> rfl

/-! ### The fields the conditional updates change -/

@[simp] theorem skipIf_pc (s : State) (c : Bool) : (s.skipIf c).pc = s.pc + (if c then 4 else 2) := by cases c <;> rfl

theorem tickIfPerInstruction_eq (s : State) :
    s.tickIfPerInstruction = if s.config.timerMode = .perInstruction then s.timerTick else s := by
  unfold tickIfPerInstruction
  cases s.config.timerMode <;> rfl

theorem finishStep_of_running {s : State} (h : s.runState = .running) : s.finishStep = s.tickIfPerInstruction := by
  simp [finishStep, h]

theorem finishStep_of_not_running {s : State} (h : s.runState ≠ .running) : s.finishStep = s := by
  unfold finishStep
  cases hr : s.runState <;> simp_all

@[simp] theorem finishStep_raise (s : State) (c : Cause) (w : Option Word) : (s.raise c w).finishStep = s.raise c w := rfl

/-! ### Reading registers after writes -/

@[simp] theorem readV_writeV_same (s : State) (x : RegIdx) (b : Byte) : (s.writeV x b).readV x = b := by
  simp [readV, writeV]

theorem readV_writeV_other (s : State) {x r : RegIdx} (b : Byte) (h : r ≠ x) : (s.writeV x b).readV r = s.readV r := by
  have : x.val ≠ r.val := fun e => h (Fin.ext e.symm)
  simp [readV, writeV, this]

theorem readV_writeV (s : State) (x r : RegIdx) (b : Byte) :
    (s.writeV x b).readV r = if r = x then b else s.readV r := by
  split
  · next h => subst h; simp
  · next h => exact readV_writeV_other s b h

theorem setFlag_eq (s : State) (c : Bool) : s.setFlag c = s.writeV vf (flagByte c) := rfl

@[simp] theorem readV_advance (s : State) (k : Word) (x : RegIdx) : (s.advance k).readV x = s.readV x := rfl

/-- Two register files that read the same are the same. -/
theorem regs_ext {v w : Vector Byte 16} (h : ∀ x : RegIdx, v[x] = w[x]) : v = w := by
  apply Vector.ext
  intro j hj
  exact h ⟨j, hj⟩

end Sys2Proof.Machine.State
end

