-- ==== Sys2Proof/Laws/Ops.lean ====
section
/-! SUPPORT. One lemma per shared operation: everything it can do, for proofs to cite. -/

namespace Sys2Proof.Machine

/-- A data access fits when it has no bytes or its last byte is inside memory (R55). -/
theorem dataFits_iff {a n : Nat} : dataFits a n = true ↔ n = 0 ∨ a + n ≤ memSize := by
  simp only [dataFits, Bool.or_eq_true, decide_eq_true_eq, memSize]
  omega

@[simp] theorem dataAddr_zero (s : State) : s.dataAddr 0 = s.i.toNat := rfl

/-- A timer counts down by one and stops at 0 (R190). -/
theorem countDown_toNat (t : Byte) : (countDown t).toNat = t.toNat - 1 := by
  unfold countDown
  split
  · next h => subst h; rfl
  · next h =>
    have : t.toNat ≠ 0 := fun e => h (BitVec.eq_of_toNat_eq e)
    rw [BitVec.toNat_sub_of_le (by rw [BitVec.le_def]; simpa using Nat.one_le_iff_ne_zero.2 this)]
    rfl

/-- The tick that ends a step writes nothing but the timers. -/
theorem finishStep_eq (s : State) : ∃ d e, s.finishStep = { s with dt := d, st := e } := by
  unfold State.finishStep
  split
  · rw [State.tickIfPerInstruction_eq]
    split
    · exact ⟨_, _, rfl⟩
    · exact ⟨_, _, rfl⟩
  · exact ⟨_, _, rfl⟩
  · exact ⟨_, _, rfl⟩

@[simp] theorem finishStep_waitKey (s : State) (x : RegIdx) :
    (s.setRun (.waitKey x)).finishStep = s.setRun (.waitKey x) := rfl

@[simp] theorem onNext_next (f : State → State) (s : State) : onNext f (.next s) = .next (f s) := rfl

theorem onNext_eq_next {f : State → State} {r : Result} {t : State} (h : onNext f r = .next t) :
    ∃ u, r = .next u ∧ t = f u := by
  cases r with
  | next u => exact ⟨u, rfl, by injection h with h; exact h.symm⟩
  | fault _ => cases h
  | refused _ => cases h

/-- The word at pc depends on pc and memory alone. -/
theorem fetchWord_congr {s t : State} (hp : t.pc = s.pc) (hm : t.mem = s.mem) : t.fetchWord = s.fetchWord := by
  simp only [State.fetchWord, hp, hm]

theorem fetchWord_eq_some {s : State} {w : Word} :
    s.fetchWord = some w ↔ s.pc.toNat ≤ lastFetch ∧ s.mem.readWord s.pc.toNat = w := by
  unfold State.fetchWord
  split <;> simp_all

theorem fetchWord_eq_none {s : State} : s.fetchWord = none ↔ lastFetch < s.pc.toNat := by
  unfold State.fetchWord
  split <;> simp_all

/-- The decimal digits are hundreds, tens and units, each at most 9, and sum to the byte (R153). -/
theorem decimalDigits_eq (b : Byte) : ∃ h t u : Byte, decimalDigits b = [h, t, u] ∧ h.toNat ≤ 2 ∧ t.toNat ≤ 9 ∧ u.toNat ≤ 9 ∧
    100 * h.toNat + 10 * t.toNat + u.toNat = b.toNat := by
  have hb := b.isLt
  refine ⟨_, _, _, rfl, ?_⟩
  simp only [BitVec.toNat_ofNat]
  omega

/-- The registers V0 to VX as a list (R154). -/
theorem regsUpTo_length (s : State) (x : RegIdx) : (s.regsUpTo x).length = x.val + 1 := by
  have := x.isLt
  simp only [State.regsUpTo, List.length_take, Vector.length_toList]
  omega

theorem regsUpTo_getD (s : State) (x : RegIdx) (j : Nat) (d : Byte) :
    (s.regsUpTo x).getD j d = if h : j ≤ x.val then s.v[j]'(by have := x.isLt; omega) else d := by
  have hx := x.isLt
  split
  · next h =>
    have hj : j < (s.regsUpTo x).length := by rw [regsUpTo_length]; omega
    rw [List.getD_eq_getElem _ _ hj]
    simp [State.regsUpTo]
  · next h =>
    rw [List.getD_eq_default]
    rw [regsUpTo_length]; omega

/-- The registers after a load of the first `n` (R155). -/
theorem loadRegs_getElem (s : State) (n : Nat) (v : Vector Byte 16) (r : Nat) (hr : r < 16) :
    (s.loadRegs n v)[r] = if r < n then s.mem.read (s.dataAddr r) else v[r] := by
  induction n generalizing v with
  | zero => simp [State.loadRegs]
  | succ n ih =>
    rw [State.loadRegs, ih]
    rcases Nat.lt_trichotomy r n with h | h | h
    · simp [h, show r < n + 1 by omega]
    · subst h; simp
    · simp [show ¬ r < n by omega, show ¬ r < n + 1 by omega, show n ≠ r by omega]

/-- The key code of a register is its value, if that is at most 15 (R196, R197). -/
theorem keyCode_eq_some {s : State} {x : RegIdx} (h : (s.readV x).toNat < numKeys) :
    s.keyCode x = some ⟨(s.readV x).toNat, h⟩ := by
  simp only [State.keyCode, h, dite_true]

theorem keyCode_eq_none {s : State} {x : RegIdx} (h : ¬ (s.readV x).toNat < numKeys) : s.keyCode x = none := by
  simp only [State.keyCode, h, dite_false]

/-- The random byte's use changes only the model's own record of it. -/
theorem useRnd_eq (s : State) : ∃ r d, s.useRnd = { s with rndIn := r, draws := d } := by
  unfold State.useRnd
  split <;> exact ⟨_, _, rfl⟩

/-! ### Decoding and encoding -/

/-- The instruction of a word decodes to that word's instruction and nothing else. -/
theorem instr?_eq_some {d : Decoded} {i : Instr} : d.instr? = some i ↔ d = .instr i := by
  cases d <;> simp [Decoded.instr?]

/-- What decoding a word answers: an instruction, or that very word as unknown (R79). -/
def Answers (w : Word) (d : Decoded) : Prop := (∃ i, d = .instr i) ∨ d = .unknown w

theorem answers_instr (w : Word) (i : Instr) : Answers w (.instr i) := .inl ⟨i, rfl⟩

theorem answers_unknown (w : Word) : Answers w (.unknown w) := .inr rfl

theorem answers_ite {w : Word} {p : Prop} [Decidable p] {d e : Decoded} (hd : Answers w d) (he : Answers w e) :
    Answers w (if p then d else e) := by
  split <;> assumption

theorem decode0_answers (w : Word) : Answers w (decode0 w) := by
  unfold decode0
  repeat' first | apply answers_instr | apply answers_unknown | apply answers_ite

theorem decode8_answers (w : Word) : Answers w (decode8 w) := by
  unfold decode8
  repeat' first | apply answers_instr | apply answers_unknown | apply answers_ite

theorem decodeE_answers (w : Word) : Answers w (decodeE w) := by
  unfold decodeE
  repeat' first | apply answers_instr | apply answers_unknown | apply answers_ite

theorem decodeF_answers (w : Word) : Answers w (decodeF w) := by
  unfold decodeF
  repeat' first | apply answers_instr | apply answers_unknown | apply answers_ite

/-- A word is an instruction or unknown; two bytes are never too few (R79). -/
theorem decode_answers (w : Word) : Answers w (decode w) := by
  unfold decode
  repeat' first
    | apply answers_instr | apply answers_unknown | apply decode0_answers | apply decode8_answers | apply decodeE_answers
    | apply decodeF_answers | apply answers_ite

end Sys2Proof.Machine
end

