-- ==== Sys2Proof/Laws/Exec.lean ====
section
/-! SUPPORT. What an instruction can do, said once: raise its fatal error, suspend, or complete. And what a step can do. -/

namespace Sys2Proof.Machine

/-- What every completed instruction leaves alone (R35): the keypad, the run state, and the host's side of the model. -/
structure Completes (s t : State) : Prop where
  keypad : t.keypad = s.keypad
  runState : t.runState = s.runState
  config : t.config = s.config
  schedule : t.schedule = s.schedule

theorem completes_skipIf (s : State) (c : Bool) : Completes s (s.skipIf c) := ⟨by simp, by simp, by simp, by simp⟩

/-- Everything an instruction can do: raise a fatal error that leaves all but the run state, suspend for a key, or complete.
It never ends in a fault or a refusal of the model. -/
theorem exec_cases (i : Instr) (s : State) :
    (∃ c, c ≠ .fetchOutOfRange ∧ exec i s = .next (s.raise c (some (encode i)))) ∨
    (∃ x, i = .ldVxK x ∧ exec i s = .next (s.setRun (.waitKey x))) ∨
    (∃ t, exec i s = .next t ∧ Completes s t) := by
  cases i
  case ret =>
    simp only [exec, execRet]
    split
    · exact .inr (.inr ⟨_, rfl, ⟨rfl, rfl, rfl, rfl⟩⟩)
    · exact .inl ⟨_, by decide, rfl⟩
  case call addr =>
    simp only [exec, execCall]
    split
    · exact .inr (.inr ⟨_, rfl, ⟨rfl, rfl, rfl, rfl⟩⟩)
    · exact .inl ⟨_, by decide, rfl⟩
  case drw x y n =>
    simp only [exec, execDrw]
    split
    · exact .inr (.inr ⟨_, rfl, ⟨rfl, rfl, rfl, rfl⟩⟩)
    · exact .inl ⟨_, by decide, rfl⟩
  case ldB x =>
    simp only [exec, execLdB]
    split
    · exact .inr (.inr ⟨_, rfl, ⟨rfl, rfl, rfl, rfl⟩⟩)
    · exact .inl ⟨_, by decide, rfl⟩
  case ldMemVx x =>
    simp only [exec, execLdMemVx]
    split
    · exact .inr (.inr ⟨_, rfl, ⟨rfl, rfl, rfl, rfl⟩⟩)
    · exact .inl ⟨_, by decide, rfl⟩
  case ldVxMem x =>
    simp only [exec, execLdVxMem]
    split
    · exact .inr (.inr ⟨_, rfl, ⟨rfl, rfl, rfl, rfl⟩⟩)
    · exact .inl ⟨_, by decide, rfl⟩
  case skp x =>
    simp only [exec, execSkp]
    split
    · exact .inr (.inr ⟨_, rfl, completes_skipIf s _⟩)
    · exact .inl ⟨_, by decide, rfl⟩
  case sknp x =>
    simp only [exec, execSknp]
    split
    · exact .inr (.inr ⟨_, rfl, completes_skipIf s _⟩)
    · exact .inl ⟨_, by decide, rfl⟩
  case ldVxK x => exact .inr (.inl ⟨x, rfl, rfl⟩)
  case seImm x kk => exact .inr (.inr ⟨_, rfl, completes_skipIf s _⟩)
  case sneImm x kk => exact .inr (.inr ⟨_, rfl, completes_skipIf s _⟩)
  case seReg x y => exact .inr (.inr ⟨_, rfl, completes_skipIf s _⟩)
  case sneReg x y => exact .inr (.inr ⟨_, rfl, completes_skipIf s _⟩)
  case rnd x kk => exact .inr (.inr ⟨_, rfl, ⟨by simp, by simp, by simp, by simp⟩⟩)
  all_goals exact .inr (.inr ⟨_, rfl, ⟨rfl, rfl, rfl, rfl⟩⟩)

/-- Every instruction keeps the one form of memory: only `FX33` and `FX55` write it, inside the 4096 bytes (R35, R55). -/
theorem exec_mem_wf {i : Instr} {s t : State} (hm : s.mem.wf) (h : exec i s = .next t) : t.mem.wf := by
  cases i
  case ldB x =>
    simp only [exec, execLdB] at h
    split at h
    · next hf =>
      injection h with h; subst h
      rcases dataFits_iff.1 hf with hf | hf
      · cases hf
      · exact Memory.writeBytes_wf hm hf
    · injection h with h; subst h; exact hm
  case ldMemVx x =>
    simp only [exec, execLdMemVx] at h
    split at h
    · next hf =>
      injection h with h; subst h
      rcases dataFits_iff.1 hf with hf | hf
      · omega
      · exact Memory.writeBytes_wf hm (by rw [regsUpTo_length]; exact hf)
    · injection h with h; subst h; exact hm
  case ret => simp only [exec, execRet] at h; split at h <;> (injection h with h; subst h; exact hm)
  case call addr => simp only [exec, execCall] at h; split at h <;> (injection h with h; subst h; exact hm)
  case drw x y n => simp only [exec, execDrw] at h; split at h <;> (injection h with h; subst h; exact hm)
  case ldVxMem x => simp only [exec, execLdVxMem] at h; split at h <;> (injection h with h; subst h; exact hm)
  case skp x => simp only [exec, execSkp] at h; split at h <;> (injection h with h; subst h; simpa using hm)
  case sknp x => simp only [exec, execSknp] at h; split at h <;> (injection h with h; subst h; simpa using hm)
  case seImm x kk => injection h with h; subst h; simpa using hm
  case sneImm x kk => injection h with h; subst h; simpa using hm
  case seReg x y => injection h with h; subst h; simpa using hm
  case sneReg x y => injection h with h; subst h; simpa using hm
  case rnd x kk => injection h with h; subst h; simpa using hm
  all_goals (injection h with h; subst h; exact hm)

/-- The tick keeps memory and everything else but the timers. -/
@[simp] theorem finishStep_mem_wf {s : State} : s.finishStep.mem.wf ↔ s.mem.wf := by simp

/-- What one cycle in RUNNING is (R93, R227): one of the two fatal errors of fetch and decode, or the instruction's effect. -/
theorem cycle_cases (s : State) :
    (s.fetchWord = none ∧ cycle s = .next (s.raise .fetchOutOfRange none)) ∨
    (∃ w, s.fetchWord = some w ∧ decode w = .unknown w ∧ cycle s = .next (s.raise .unknownInstruction (some w))) ∨
    (∃ w i, s.fetchWord = some w ∧ decode w = .instr i ∧ cycle s = exec i s) := by
  unfold cycle
  cases hf : s.fetchWord with
  | none => exact .inl ⟨rfl, rfl⟩
  | some w =>
    rcases decode_answers w with ⟨i, hd⟩ | hd
    · exact .inr (.inr ⟨w, i, rfl, hd, by simp [hd, Decoded.instr?]⟩)
    · exact .inr (.inl ⟨w, rfl, hd, by simp [hd, Decoded.instr?]⟩)

/-- Everything a step of the core that answers a next state can have done (R93, R99). -/
theorem coreStep_cases {s t : State} (h : coreStep s = .next t) :
    (∃ x, s.runState = .waitKey x ∧ t = s) ∨
    (s.runState = .running ∧
      ((s.fetchWord = none ∧ t = s.raise .fetchOutOfRange none) ∨
       (∃ w, s.fetchWord = some w ∧ decode w = .unknown w ∧ t = s.raise .unknownInstruction (some w)) ∨
       (∃ w i u, s.fetchWord = some w ∧ decode w = .instr i ∧ exec i s = .next u ∧ t = u.finishStep))) := by
  unfold coreStep at h
  cases hr : s.runState with
  | waitKey x =>
    simp only [hr] at h
    injection h with h
    exact .inl ⟨x, rfl, h.symm⟩
  | halted c p w => simp only [hr] at h; cases h
  | running =>
    simp only [hr] at h
    obtain ⟨u, hu, rfl⟩ := onNext_eq_next h
    refine .inr ⟨rfl, ?_⟩
    rcases cycle_cases s with ⟨hf, hc⟩ | ⟨w, hf, hd, hc⟩ | ⟨w, i, hf, hd, hc⟩
    · rw [hc] at hu; injection hu with hu; subst hu
      exact .inl ⟨hf, by simp⟩
    · rw [hc] at hu; injection hu with hu; subst hu
      exact .inr (.inl ⟨w, hf, hd, by simp⟩)
    · exact .inr (.inr ⟨w, i, u, hf, hd, hc ▸ hu, rfl⟩)

/-- A step of the core keeps the one form of memory. -/
theorem coreStep_mem_wf {s t : State} (hm : s.mem.wf) (h : coreStep s = .next t) : t.mem.wf := by
  rcases coreStep_cases h with ⟨-, -, rfl⟩ | ⟨-, ⟨-, rfl⟩ | ⟨w, -, -, rfl⟩ | ⟨w, i, u, -, -, hx, rfl⟩⟩
  · exact hm
  · exact hm
  · exact hm
  · exact finishStep_mem_wf.2 (exec_mem_wf hm hx)

/-- A launch gives memory its one form (R252). -/
theorem launched_mem_wf {program : List Byte} (h : program.length ≤ maxProgram) : (State.launched program).mem.wf :=
  Memory.writeBytes_wf Memory.wf_nil (by simp only [memSize, loadBase, maxProgram] at *; omega)

/-- A placed word stands inside memory. -/
theorem placeWord_pc_le (s : State) (w : Word) : (s.placeWord w).pc.toNat ≤ lastFetch := by
  show (if s.pc.toNat ≤ lastFetch then s.pc else BitVec.ofNat 16 loadBase).toNat ≤ lastFetch
  split
  · assumption
  · decide

/-- Placing a word keeps the one form of memory. -/
theorem placeWord_mem_wf {s : State} (hm : s.mem.wf) (w : Word) : (s.placeWord w).mem.wf := by
  have h := placeWord_pc_le s w
  exact Memory.writeBytes_wf hm (show (s.placeWord w).pc.toNat + 2 ≤ memSize by simp only [memSize, lastFetch] at *; omega)

/-- The word that was placed is the word that is fetched. -/
theorem placeWord_fetch {s : State} (hm : s.mem.wf) (w : Word) : (s.placeWord w).fetchWord = some w := by
  have h := placeWord_pc_le s w
  have hl : (s.placeWord w).pc.toNat + [hiByte w, loByte w].length ≤ memSize := by
    simp only [memSize, lastFetch, List.length_cons, List.length_nil] at *; omega
  have e : (s.placeWord w).mem = s.mem.writeBytes (s.placeWord w).pc.toNat [hiByte w, loByte w] := rfl
  rw [fetchWord_eq_some]
  refine ⟨h, ?_⟩
  rw [Memory.readWord, e, Memory.read_writeBytes hm hl, Memory.read_writeBytes hm hl]
  simp

/-- What every host action that answers a next state does to memory, pc, the stack and `run_state` (R35, R91). -/
theorem perform_cases {a : HostAction} {s t : State} (h : perform a s = .next t) :
    (∃ p, a = .launch p ∧ p.length ≤ maxProgram ∧ t = s.launch p) ∨
    (∃ b u, a = .step b ∧ coreStep (s.setRndIn (some b)) = .next u ∧ t = u.setRndIn none) ∨
    (∃ c p, ∃ hc : c < numKeys, a = .setKey c p ∧ t = s.writeKey ⟨c, hc⟩ p ∧ ∀ q k w, s.runState ≠ .halted q k w) ∨
    (∃ c x, ∃ hc : c < numKeys, a = .keyPress c ∧ s.runState = .waitKey x ∧ t = s.keyPress x ⟨c, hc⟩) ∨
    (∃ x, a = .cancel ∧ s.runState = .waitKey x ∧ t = s.cancel) ∨
    (a = .readFramebuffer ∧ t = s) ∨
    (a = .tick ∧ s.config.timerMode = .externalTick ∧ t = s.timerTick ∧ ∀ q k w, s.runState ≠ .halted q k w) := by
  cases a with
  | launch p =>
    simp only [perform, launchProgram] at h
    split at h
    · next hp => injection h with h; exact .inl ⟨p, rfl, hp, h.symm⟩
    · cases h
  | step b =>
    obtain ⟨u, hu, rfl⟩ := onNext_eq_next h
    exact .inr (.inl ⟨b, u, rfl, hu, rfl⟩)
  | setKey c p =>
    simp only [perform, setKey] at h
    split at h
    · next hc =>
      split at h
      · next hr => injection h with h; exact .inr (.inr (.inl ⟨c, p, hc, rfl, h.symm, by simp [hr]⟩))
      · next hr => injection h with h; exact .inr (.inr (.inl ⟨c, p, hc, rfl, h.symm, by simp [hr]⟩))
      · cases h
    · cases h
  | keyPress c =>
    simp only [perform, pressKey] at h
    split at h
    · next hc =>
      split at h
      · next x hr => injection h with h; exact .inr (.inr (.inr (.inl ⟨c, x, hc, rfl, hr, h.symm⟩)))
      · cases h
      · cases h
    · cases h
  | cancel =>
    simp only [perform, cancelWait] at h
    split at h
    · next x hr => injection h with h; exact .inr (.inr (.inr (.inr (.inl ⟨x, rfl, hr, h.symm⟩))))
    · cases h
    · cases h
  | readFramebuffer => injection h with h; exact .inr (.inr (.inr (.inr (.inr (.inl ⟨rfl, h.symm⟩)))))
  | tick =>
    simp only [perform, hostTick] at h
    split at h
    · next hc hr =>
      injection h with h
      exact .inr (.inr (.inr (.inr (.inr (.inr ⟨rfl, hc, h.symm, by simp [hr]⟩)))))
    · next hc hr =>
      injection h with h
      exact .inr (.inr (.inr (.inr (.inr (.inr ⟨rfl, hc, h.symm, by simp [hr]⟩)))))
    · cases h
    · cases h

end Sys2Proof.Machine
end

