-- ==== Sys2Proof/Laws/PerInstr.lean ====
section
/-! SUPPORT. What holds of every instruction as syntax, one lemma per constructor: the word of an instruction matches that
instruction's own row of the opcode table, and the row is in the table. -/

namespace Sys2Proof.Laws.RowMatch

/-- The encoding of `i` agrees with the mask and match columns of R76 for `i` (R75). -/
def Statement (i : Instr) : Prop := i.row.matches (encode i) = true ∧ i.row ∈ opcodeRows

theorem matches_of_mask {m p w : Word} (h : w &&& m = p) : (Row.mk m p).matches w = true := beq_iff_eq.2 h

theorem cls : Statement .cls := ⟨by decide, by decide⟩
theorem ret : Statement .ret := ⟨by decide, by decide⟩
theorem jp (addr : Addr) : Statement (.jp addr) :=
  ⟨matches_of_mask ((packAddr_mask _ _).trans (by decide)), (by decide : (Instr.jp 0).row ∈ opcodeRows)⟩
theorem call (addr : Addr) : Statement (.call addr) :=
  ⟨matches_of_mask ((packAddr_mask _ _).trans (by decide)), (by decide : (Instr.call 0).row ∈ opcodeRows)⟩
theorem seImm (x : RegIdx) (kk : Byte) : Statement (.seImm x kk) :=
  ⟨matches_of_mask ((packByte_mask_op _ _ _).trans (by decide)), (by decide : (Instr.seImm 0 0).row ∈ opcodeRows)⟩
theorem sneImm (x : RegIdx) (kk : Byte) : Statement (.sneImm x kk) :=
  ⟨matches_of_mask ((packByte_mask_op _ _ _).trans (by decide)), (by decide : (Instr.sneImm 0 0).row ∈ opcodeRows)⟩
theorem seReg (x y : RegIdx) : Statement (.seReg x y) :=
  ⟨matches_of_mask ((packRegs_mask_n _ _ _ _).trans (by decide)), (by decide : (Instr.seReg 0 0).row ∈ opcodeRows)⟩
theorem ldImm (x : RegIdx) (kk : Byte) : Statement (.ldImm x kk) :=
  ⟨matches_of_mask ((packByte_mask_op _ _ _).trans (by decide)), (by decide : (Instr.ldImm 0 0).row ∈ opcodeRows)⟩
theorem addImm (x : RegIdx) (kk : Byte) : Statement (.addImm x kk) :=
  ⟨matches_of_mask ((packByte_mask_op _ _ _).trans (by decide)), (by decide : (Instr.addImm 0 0).row ∈ opcodeRows)⟩
theorem ldReg (x y : RegIdx) : Statement (.ldReg x y) :=
  ⟨matches_of_mask ((packRegs_mask_n _ _ _ _).trans (by decide)), (by decide : (Instr.ldReg 0 0).row ∈ opcodeRows)⟩
theorem addReg (x y : RegIdx) : Statement (.addReg x y) :=
  ⟨matches_of_mask ((packRegs_mask_n _ _ _ _).trans (by decide)), (by decide : (Instr.addReg 0 0).row ∈ opcodeRows)⟩
theorem sub (x y : RegIdx) : Statement (.sub x y) :=
  ⟨matches_of_mask ((packRegs_mask_n _ _ _ _).trans (by decide)), (by decide : (Instr.sub 0 0).row ∈ opcodeRows)⟩
theorem subn (x y : RegIdx) : Statement (.subn x y) :=
  ⟨matches_of_mask ((packRegs_mask_n _ _ _ _).trans (by decide)), (by decide : (Instr.subn 0 0).row ∈ opcodeRows)⟩
theorem sneReg (x y : RegIdx) : Statement (.sneReg x y) :=
  ⟨matches_of_mask ((packRegs_mask_n _ _ _ _).trans (by decide)), (by decide : (Instr.sneReg 0 0).row ∈ opcodeRows)⟩
theorem ldI (addr : Addr) : Statement (.ldI addr) :=
  ⟨matches_of_mask ((packAddr_mask _ _).trans (by decide)), (by decide : (Instr.ldI 0).row ∈ opcodeRows)⟩
theorem jpV0 (addr : Addr) : Statement (.jpV0 addr) :=
  ⟨matches_of_mask ((packAddr_mask _ _).trans (by decide)), (by decide : (Instr.jpV0 0).row ∈ opcodeRows)⟩
theorem rnd (x : RegIdx) (kk : Byte) : Statement (.rnd x kk) :=
  ⟨matches_of_mask ((packByte_mask_op _ _ _).trans (by decide)), (by decide : (Instr.rnd 0 0).row ∈ opcodeRows)⟩
theorem drw (x y : RegIdx) (n : Nibble) : Statement (.drw x y n) :=
  ⟨matches_of_mask ((packRegs_mask_op _ _ _ _).trans (by decide)), (by decide : (Instr.drw 0 0 0).row ∈ opcodeRows)⟩
theorem skp (x : RegIdx) : Statement (.skp x) :=
  ⟨matches_of_mask ((packByte_mask_kk _ _ _).trans (by decide)), (by decide : (Instr.skp 0).row ∈ opcodeRows)⟩
theorem sknp (x : RegIdx) : Statement (.sknp x) :=
  ⟨matches_of_mask ((packByte_mask_kk _ _ _).trans (by decide)), (by decide : (Instr.sknp 0).row ∈ opcodeRows)⟩
theorem ldVxDt (x : RegIdx) : Statement (.ldVxDt x) :=
  ⟨matches_of_mask ((packByte_mask_kk _ _ _).trans (by decide)), (by decide : (Instr.ldVxDt 0).row ∈ opcodeRows)⟩
theorem ldVxK (x : RegIdx) : Statement (.ldVxK x) :=
  ⟨matches_of_mask ((packByte_mask_kk _ _ _).trans (by decide)), (by decide : (Instr.ldVxK 0).row ∈ opcodeRows)⟩
theorem ldDtVx (x : RegIdx) : Statement (.ldDtVx x) :=
  ⟨matches_of_mask ((packByte_mask_kk _ _ _).trans (by decide)), (by decide : (Instr.ldDtVx 0).row ∈ opcodeRows)⟩
theorem ldStVx (x : RegIdx) : Statement (.ldStVx x) :=
  ⟨matches_of_mask ((packByte_mask_kk _ _ _).trans (by decide)), (by decide : (Instr.ldStVx 0).row ∈ opcodeRows)⟩
theorem addI (x : RegIdx) : Statement (.addI x) :=
  ⟨matches_of_mask ((packByte_mask_kk _ _ _).trans (by decide)), (by decide : (Instr.addI 0).row ∈ opcodeRows)⟩
theorem ldF (x : RegIdx) : Statement (.ldF x) :=
  ⟨matches_of_mask ((packByte_mask_kk _ _ _).trans (by decide)), (by decide : (Instr.ldF 0).row ∈ opcodeRows)⟩
theorem ldB (x : RegIdx) : Statement (.ldB x) :=
  ⟨matches_of_mask ((packByte_mask_kk _ _ _).trans (by decide)), (by decide : (Instr.ldB 0).row ∈ opcodeRows)⟩
theorem ldMemVx (x : RegIdx) : Statement (.ldMemVx x) :=
  ⟨matches_of_mask ((packByte_mask_kk _ _ _).trans (by decide)), (by decide : (Instr.ldMemVx 0).row ∈ opcodeRows)⟩
theorem ldVxMem (x : RegIdx) : Statement (.ldVxMem x) :=
  ⟨matches_of_mask ((packByte_mask_kk _ _ _).trans (by decide)), (by decide : (Instr.ldVxMem 0).row ∈ opcodeRows)⟩

/-- Every instruction's word matches its own row. -/
theorem all (i : Instr) : Statement i := by
  cases i
  case cls => exact cls
  case ret => exact ret
  case jp => exact jp ..
  case call => exact call ..
  case seImm => exact seImm ..
  case sneImm => exact sneImm ..
  case seReg => exact seReg ..
  case ldImm => exact ldImm ..
  case addImm => exact addImm ..
  case ldReg => exact ldReg ..
  case addReg => exact addReg ..
  case sub => exact sub ..
  case subn => exact subn ..
  case sneReg => exact sneReg ..
  case ldI => exact ldI ..
  case jpV0 => exact jpV0 ..
  case rnd => exact rnd ..
  case drw => exact drw ..
  case skp => exact skp ..
  case sknp => exact sknp ..
  case ldVxDt => exact ldVxDt ..
  case ldVxK => exact ldVxK ..
  case ldDtVx => exact ldDtVx ..
  case ldStVx => exact ldStVx ..
  case addI => exact addI ..
  case ldF => exact ldF ..
  case ldB => exact ldB ..
  case ldMemVx => exact ldMemVx ..
  case ldVxMem => exact ldVxMem ..

end Sys2Proof.Laws.RowMatch
end

