-- ==== Sys2Proof/Tests/Slice0.lean ====
section
/-! SUPPORT. The model's own tests: ill-formed terms, words written out from the encodings of spec/30_encoding.md R76, and single
steps whose expected results are the vectors of spec/95_test_vectors.md (named in each docstring). After them, for every
statement with hypotheses, states and operands that meet them. -/

namespace Sys2Proof.Tests

open Sys2Proof.Machine

/-! ### Helpers -/

/-- The result is a next state with this property. -/
def answers (r : Result) (p : State → Bool) : Bool :=
  match r with
  | .next t => p t
  | .fault _ | .refused _ => false

/-- The result is exactly this next state. -/
def gives (r : Result) (t : State) : Bool := answers r (fun u => decide (u = t))

/-- The result is the fault of the model with this name. -/
def faults (r : Result) (f : Fault) : Bool :=
  match r with
  | .fault g => decide (g = f)
  | .next _ | .refused _ => false

/-- The result is the refusal of the model with this name. -/
def refuses (r : Result) (f : Refusal) : Bool :=
  match r with
  | .refused g => decide (g = f)
  | .next _ | .fault _ => false

theorem answers_iff {r : Result} {p : State → Bool} : answers r p = true ↔ ∃ t, r = .next t ∧ p t = true := by
  cases r <;> simp [answers]

theorem gives_iff {r : Result} {t : State} : gives r t = true ↔ r = .next t := by
  cases r <;> simp [gives, answers]

/-- The state after reset with some registers set. -/
def regs (l : List (RegIdx × Byte)) : State := l.foldl (fun s p => s.writeV p.1 p.2) State.reset

/-- The state `s` with the word `w` at its pc. -/
def runs (w : Word) (s : State) : State := s.placeWord w

/-! ### Well-formedness: an ill-formed term for each check -/

theorem test_unknown_word_ill_formed : wellFormedWord 0xF0FF = false := by decide
theorem test_no_or_word_ill_formed : wellFormedWord 0x8121 = false := by decide
theorem test_zero_word_ill_formed : wellFormedWord 0x0000 = false := by decide
theorem test_known_word_well_formed : wellFormedWord 0x812E = false ∧ wellFormedWord 0x8127 = true := by decide
theorem test_set_key_16_ill_formed : (HostAction.setKey 16 true).wellFormed = false := by decide
theorem test_key_press_16_ill_formed : (HostAction.keyPress 16).wellFormed = false := by decide
theorem test_key_15_well_formed : (HostAction.setKey 15 true).wellFormed = true ∧ (HostAction.keyPress 15).wellFormed = true := by
  decide
theorem test_program_3585_ill_formed : (HostAction.launch (List.replicate 3585 0)).wellFormed = false := by
  show decide ((List.replicate 3585 (0 : Byte)).length ≤ maxProgram) = false
  rw [List.length_replicate]
  decide
theorem test_program_3584_well_formed : (HostAction.launch (List.replicate 3584 0)).wellFormed = true := by
  show decide ((List.replicate 3584 (0 : Byte)).length ≤ maxProgram) = true
  rw [List.length_replicate]
  decide

/-! ### Decoding: each constructor from a word written out from its encoding -/

theorem test_decode_cls : decode 0x00E0 = .instr .cls := by decide
theorem test_decode_ret : decode 0x00EE = .instr .ret := by decide
theorem test_decode_jp : decode 0x1234 = .instr (.jp 0x234) := by decide
theorem test_decode_call : decode 0x2ABC = .instr (.call 0xABC) := by decide
theorem test_decode_seImm : decode 0x3A05 = .instr (.seImm 10 0x05) := by decide
theorem test_decode_sneImm : decode 0x41FE = .instr (.sneImm 1 0xFE) := by decide
theorem test_decode_seReg : decode 0x5120 = .instr (.seReg 1 2) := by decide
theorem test_decode_ldImm : decode 0x6A2C = .instr (.ldImm 10 0x2C) := by decide
theorem test_decode_addImm : decode 0x7201 = .instr (.addImm 2 0x01) := by decide
theorem test_decode_ldReg : decode 0x8230 = .instr (.ldReg 2 3) := by decide
theorem test_decode_addReg : decode 0x8FE4 = .instr (.addReg 15 14) := by decide
theorem test_decode_sub : decode 0x8125 = .instr (.sub 1 2) := by decide
theorem test_decode_subn : decode 0x8127 = .instr (.subn 1 2) := by decide
theorem test_decode_sneReg : decode 0x9120 = .instr (.sneReg 1 2) := by decide
theorem test_decode_ldI : decode 0xA2F0 = .instr (.ldI 0x2F0) := by decide
theorem test_decode_jpV0 : decode 0xB123 = .instr (.jpV0 0x123) := by decide
theorem test_decode_rnd : decode 0xC30F = .instr (.rnd 3 0x0F) := by decide
theorem test_decode_drw : decode 0xD12F = .instr (.drw 1 2 15) := by decide
theorem test_decode_skp : decode 0xE29E = .instr (.skp 2) := by decide
theorem test_decode_sknp : decode 0xE2A1 = .instr (.sknp 2) := by decide
theorem test_decode_ldVxDt : decode 0xF307 = .instr (.ldVxDt 3) := by decide
theorem test_decode_ldVxK : decode 0xF30A = .instr (.ldVxK 3) := by decide
theorem test_decode_ldDtVx : decode 0xF315 = .instr (.ldDtVx 3) := by decide
theorem test_decode_ldStVx : decode 0xF218 = .instr (.ldStVx 2) := by decide
theorem test_decode_addI : decode 0xF41E = .instr (.addI 4) := by decide
theorem test_decode_ldF : decode 0xF029 = .instr (.ldF 0) := by decide
theorem test_decode_ldB : decode 0xF533 = .instr (.ldB 5) := by decide
theorem test_decode_ldMemVx : decode 0xF255 = .instr (.ldMemVx 2) := by decide
theorem test_decode_ldVxMem : decode 0xFE65 = .instr (.ldVxMem 14) := by decide

/-- EN8: bytes are read high byte first. -/
theorem test_decode_big_endian : decodeBytes [0x34, 0x12] = (.instr (.seImm 4 0x12), []) := by decide
/-- EN6 and the words of part 2.6. -/
theorem test_decode_unknown_words :
    [0xE000, 0x0000, 0x00E1, 0x00EF, 0x01E0, 0x0123, 0x0FFF, 0x5001, 0x8001, 0x8002, 0x8003, 0x8006, 0x800E, 0x8008, 0x800F].all
      (fun w => decode w == .unknown w) = true ∧
    [0x9001, 0xE09F, 0xE0A0, 0xF000, 0xF0FF, 0xF175, 0xF185, 0xF00B, 0xFFFF, 0x5121, 0x912F, 0x812E, 0xE29F].all
      (fun w => decode w == .unknown w) = true := by decide
/-- R70: one byte is no instruction. -/
theorem test_decode_truncated : decodeBytes [0x12] = (.truncated, [0x12]) ∧ decodeBytes [] = (.truncated, []) := by decide

/-! ### Control transfer -/

/-- CF1. -/
theorem test_ret : let s := runs 0x00EE { State.reset with pc := 0x300, sp := 1, stack := State.reset.stack.set 0 0x204 }
    gives (step s) { s with pc := 0x206, sp := 0 } = true := by decide
/-- CF2. -/
theorem test_ret_underflow : let s := runs 0x00EE { State.reset with pc := 0x300 }
    gives (step s) { s with runState := .halted .stackUnderflow 0x300 (some 0x00EE) } = true := by decide
/-- CF4. -/
theorem test_jp_self : let s := runs 0x1200 State.reset
    gives (step s) s = true := by decide
/-- CF5. -/
theorem test_jp_last : let s := runs 0x1FFF State.reset
    gives (step s) { s with pc := 0xFFF } = true := by decide
/-- CF6. -/
theorem test_call_last : let s := runs 0x2300 { State.reset with pc := 0x204, sp := 15 }
    gives (step s) { s with pc := 0x300, sp := 16, stack := s.stack.set 15 0x204 } = true := by decide
/-- CF7. -/
theorem test_call_overflow : let s := runs 0x2300 { State.reset with pc := 0x204, sp := 16 }
    gives (step s) { s with runState := .halted .stackOverflow 0x204 (some 0x2300) } = true := by decide
/-- CF22. -/
theorem test_seImm_taken : let s := runs 0x3A05 { regs [(10, 0x05)] with pc := 0xFFE }
    gives (step s) { s with pc := 0x1002 } = true := by decide
/-- CF9. -/
theorem test_seImm_not_taken : let s := runs 0x3A06 (regs [(10, 0x05)])
    gives (step s) { s with pc := 0x202 } = true := by decide
/-- CF10. -/
theorem test_sneImm_not_taken : let s := runs 0x4A05 (regs [(10, 0x05)])
    gives (step s) { s with pc := 0x202 } = true := by decide
/-- CF11. -/
theorem test_sneImm_taken : let s := runs 0x4A06 (regs [(10, 0x05)])
    gives (step s) { s with pc := 0x204 } = true := by decide
/-- CF12. -/
theorem test_seReg_taken : let s := runs 0x5120 (regs [(1, 7), (2, 7)])
    gives (step s) { s with pc := 0x204 } = true := by decide
/-- CF13. -/
theorem test_seReg_not_taken : let s := runs 0x5120 (regs [(1, 7), (2, 8)])
    gives (step s) { s with pc := 0x202 } = true := by decide
/-- CF16. -/
theorem test_sneReg_taken : let s := runs 0x9120 (regs [(1, 7), (2, 8)])
    gives (step s) { s with pc := 0x204 } = true := by decide
/-- CF17. -/
theorem test_sneReg_not_taken : let s := runs 0x9120 (regs [(1, 7), (2, 7)])
    gives (step s) { s with pc := 0x202 } = true := by decide
/-- CF20. -/
theorem test_jpV0_above : let s := runs 0xBFFF (regs [(0, 0xFF)])
    gives (step s) { s with pc := 0x10FE } = true := by decide
/-- CF21. -/
theorem test_jpV0_not_v1 : let s := runs 0xB123 (regs [(1, 0x55)])
    gives (step s) { s with pc := 0x123 } = true := by decide
/-- CF23, CF24. -/
theorem test_fetch_outside :
    (let s := { State.reset with pc := 0x10FE }
     gives (step s) { s with runState := .halted .fetchOutOfRange 0x10FE none } = true) ∧
    (let s := { State.reset with pc := 0xFFF }
     gives (step s) { s with runState := .halted .fetchOutOfRange 0xFFF none } = true) := by decide
/-- `F0FF` of part 2.6: not even the timer tick runs. -/
theorem test_unknown_is_fatal : let s := runs 0xF0FF { State.reset with dt := 3 }
    gives (step s) { s with runState := .halted .unknownInstruction 0x200 (some 0xF0FF) } = true := by decide

/-! ### Register and arithmetic instructions -/

/-- CF25. -/
theorem test_ldImm_odd_pc : let s := runs 0x6A2C { State.reset with pc := 0x201 }
    gives (step s) { s with pc := 0x203, v := s.v.set 10 0x2C } = true := by decide
/-- TK15: the tick after an instruction, with its floor. -/
theorem test_ldImm_ticks : let s := runs 0x6000 { State.reset with dt := 1, st := 3 }
    gives (step s) { s with pc := 0x202, dt := 0, st := 2 } = true := by decide
/-- AL3. -/
theorem test_addImm_wraps : let s := runs 0x7201 (regs [(2, 0xFF)])
    gives (step s) { s with pc := 0x202, v := s.v.set 2 0 } = true := by decide
/-- AL4. -/
theorem test_addImm_vf : let s := runs 0x7F10 (regs [(15, 0xF8)])
    gives (step s) { s with pc := 0x202, v := s.v.set 15 0x08 } = true := by decide
/-- AL5. -/
theorem test_ldReg : let s := runs 0x8230 (regs [(3, 0x9A)])
    gives (step s) { s with pc := 0x202, v := s.v.set 2 0x9A } = true := by decide
/-- AL8. -/
theorem test_addReg_no_carry : let s := runs 0x8124 (regs [(1, 0xFF), (15, 1)])
    gives (step s) { s with pc := 0x202, v := s.v.set 15 0 } = true := by decide
/-- AL11. -/
theorem test_addReg_x_is_vf : let s := runs 0x8F14 (regs [(15, 0xF0), (1, 0x20)])
    gives (step s) { s with pc := 0x202, v := s.v.set 15 0x10 } = true := by decide
/-- AL14. -/
theorem test_sub_borrow : let s := runs 0x8125 (regs [(1, 3), (2, 5), (15, 1)])
    gives (step s) { s with pc := 0x202, v := (s.v.set 1 0xFE).set 15 0 } = true := by decide
/-- AL18. -/
theorem test_sub_x_is_vf : let s := runs 0x8F15 (regs [(15, 9), (1, 3)])
    gives (step s) { s with pc := 0x202, v := s.v.set 15 0xFE } = true := by decide
/-- AL23. -/
theorem test_subn_borrow : let s := runs 0x8127 (regs [(1, 5), (2, 3), (15, 1)])
    gives (step s) { s with pc := 0x202, v := (s.v.set 1 0xFE).set 15 0 } = true := by decide
/-- AL28. -/
theorem test_subn_y_is_vf : let s := runs 0x81F7 (regs [(1, 2), (15, 9)])
    gives (step s) { s with pc := 0x202, v := (s.v.set 1 0xFF).set 15 1 } = true := by decide
/-- AL31: the byte the host supplies with the step. -/
theorem test_rnd : let s := { runs 0xC30F State.reset with schedule := [.step 0xB7] }
    gives (step s) { s with pc := 0x202, v := s.v.set 3 0x07, schedule := [] } = true := by decide
/-- AL32: the mask 0 gives 0, and the supplied byte is used up. -/
theorem test_rnd_mask_zero : let s := runs 0xC300 (regs [(3, 0x55)])
    answers (exec (.rnd 3 0) { s with rndIn := some 0xB7 }) (fun t => t.v[3] == 0 && t.rndIn == none && t.draws == 0) = true := by
  decide

/-! ### Address register and memory -/

/-- IM1. -/
theorem test_ldI : let s := runs 0xA2F0 State.reset
    gives (step s) { s with pc := 0x202, i := 0x2F0 } = true := by decide
/-- IM3. -/
theorem test_addI_no_mask : let s := runs 0xF41E { regs [(4, 0xFF)] with i := 0xFFF }
    gives (step s) { s with pc := 0x202, i := 0x10FE } = true := by decide
/-- IM4. -/
theorem test_addI_wraps : let s := runs 0xF41E { regs [(4, 0x02)] with i := 0xFFFF }
    gives (step s) { s with pc := 0x202, i := 0x0001 } = true := by decide
/-- IM7. -/
theorem test_ldF_whole_byte : let s := runs 0xF029 (regs [(0, 0xFF)])
    gives (step s) { s with pc := 0x202, i := 0x04FB } = true := by decide
/-- IM11: written zeros leave the list of listed bytes. -/
theorem test_ldB_zeros : let s := runs 0xF533 { regs [(5, 7)] with i := 0x300, mem := [(0x300, 0xAA), (0x301, 0xAA)] }
    gives (step s) { s with pc := 0x202, mem := [(0x200, 0xF5), (0x201, 0x33), (0x302, 0x07)] } = true := by decide
/-- IM14. -/
theorem test_ldB_out_of_range : let s := runs 0xF533 { regs [(5, 123)] with i := 0xFFE }
    gives (step s) { s with runState := .halted .memoryOutOfRange 0x200 (some 0xF533) } = true := by decide
/-- IM16. -/
theorem test_ldMemVx_last : let s := runs 0xF055 { regs [(0, 0xAB)] with i := 0xFFF }
    gives (step s) { s with pc := 0x202, i := 0x1000, mem := s.mem ++ [(0xFFF, 0xAB)] } = true := by decide
/-- IM17. -/
theorem test_ldMemVx_out_of_range : let s := runs 0xF155 { regs [(0, 0xAB), (1, 0xCD)] with i := 0xFFF }
    gives (step s) { s with runState := .halted .memoryOutOfRange 0x200 (some 0xF155) } = true := by decide
/-- IM20. -/
theorem test_ldVxMem_all : let s := runs 0xFF65 { State.reset with i := 0xFF0, mem := [(0xFF0, 0x11), (0xFFF, 0x77)] }
    gives (step s) { s with pc := 0x202, i := 0x1000, v := (s.v.set 0 0x11).set 15 0x77 } = true := by decide
/-- IM21. -/
theorem test_ldVxMem_out_of_range : let s := runs 0xFF65 { State.reset with i := 0xFF1 }
    gives (step s) { s with runState := .halted .memoryOutOfRange 0x200 (some 0xFF65) } = true := by decide

/-! ### Display -/

/-- DS1. -/
theorem test_cls : let s := runs 0x00E0 { State.reset with fb := ((State.reset.fb.flip 0).flip 1).flip 2047 }
    gives (step s) { s with pc := 0x202, fb := State.reset.fb } = true := by decide
/-- DS6: the cells 60 to 63 and 0 to 3 of the top scanline. -/
theorem test_drw_wraps_in_its_row : let s := runs 0xD121 { regs [(1, 60)] with i := 0x300, mem := [(0x300, 0xFF)] }
    gives (step s) { s with pc := 0x202, fb := s.fb.set 0 0xF00000000000000F } = true := by decide
/-- DS13: one cell collides, one is set. -/
theorem test_drw_collision :
    let s := runs 0xD121 { State.reset with i := 0x300, mem := [(0x300, 0x90)], fb := State.reset.fb.flip 0 }
    gives (step s) { s with pc := 0x202, v := s.v.set 15 1, fb := s.fb.set 0 0x8 } = true := by decide
/-- DS6L: the alternative wrap runs on into the next scanline. -/
theorem test_spriteCell_linear : spriteCell .linear 60 0 0 4 = 64 ∧ spriteCell .perAxis 60 0 0 4 = 0 ∧
    spriteCell .linear 255 255 0 0 = 191 ∧ spriteCell .perAxis 255 255 0 0 = 2047 := by decide

/-! ### Timers and keypad -/

/-- TK1. -/
theorem test_ldVxDt : let s := runs 0xF307 { State.reset with dt := 5 }
    gives (step s) { s with pc := 0x202, v := s.v.set 3 5, dt := 4 } = true := by decide
/-- TK3. -/
theorem test_ldDtVx : let s := runs 0xF315 (regs [(3, 10)])
    gives (step s) { s with pc := 0x202, dt := 9 } = true := by decide
/-- TK6. -/
theorem test_ldStVx : let s := runs 0xF218 { regs [(2, 0xFF)] with dt := 1 }
    gives (step s) { s with pc := 0x202, dt := 0, st := 254 } = true := by decide
/-- TK7. -/
theorem test_skp_held : let s := runs 0xE29E { regs [(2, 10)] with keypad := State.reset.keypad.set 10 true }
    gives (step s) { s with pc := 0x204 } = true := by decide
/-- TK11. -/
theorem test_skp_out_of_range : let s := runs 0xE29E { regs [(2, 16)] with keypad := State.reset.keypad.set 0 true }
    gives (step s) { s with runState := .halted .keyIndexOutOfRange 0x200 (some 0xE29E) } = true := by decide
/-- TK9. -/
theorem test_sknp_not_held : let s := runs 0xE2A1 (regs [(2, 10)])
    gives (step s) { s with pc := 0x204 } = true := by decide
/-- TK10. -/
theorem test_sknp_held : let s := runs 0xE2A1 { regs [(2, 10)] with keypad := State.reset.keypad.set 10 true }
    gives (step s) { s with pc := 0x202 } = true := by decide
/-- TK14: a held key does not resolve the wait, and there is no tick. -/
theorem test_ldVxK : let s := runs 0xF30A { State.reset with dt := 7, st := 2, keypad := State.reset.keypad.set 3 true }
    gives (step s) { s with runState := .waitKey 3 } = true := by decide

/-! ### The host -/

/-- The state of HA1: waiting at `F30A`, DT = 7, ST = 2. -/
def waiting : State := { runs 0xF30A { State.reset with dt := 7, st := 2 } with runState := .waitKey 3 }

/-- HA1. -/
theorem test_key_press : gives (perform (.keyPress 0xA) waiting)
    { waiting with runState := .running, pc := 0x202, v := waiting.v.set 3 0xA, dt := 6, st := 1 } = true := by decide
/-- HA3. -/
theorem test_cancel : gives (perform .cancel waiting)
    { waiting with runState := .halted .cancelled 0x200 (some 0xF30A) } = true := by decide
/-- HA7. -/
theorem test_set_key_does_not_wake : gives (perform (.setKey 5 true) waiting)
    { waiting with keypad := waiting.keypad.set 5 true } = true := by decide
/-- HA8. -/
theorem test_tick : let s := { State.reset with config := ⟨.externalTick, .perAxis⟩, dt := 1 }
    gives (perform .tick s) { s with dt := 0 } = true := by decide
/-- HA9. -/
theorem test_external_tick_step : let s := runs 0x6000 { State.reset with config := ⟨.externalTick, .perAxis⟩, dt := 5 }
    gives (step s) { s with pc := 0x202 } = true := by decide
/-- R91: what is not enabled is a fault of the model. -/
theorem test_not_enabled : faults (perform (.keyPress 0) State.reset) (.notEnabled (.keyPress 0)) = true ∧
    faults (perform .cancel State.reset) (.notEnabled .cancel) = true ∧
    faults (perform .tick State.reset) (.notEnabled .tick) = true ∧
    faults (step { State.reset with runState := .halted .cancelled 0x200 none }) (.halted .cancelled 0x200 none) = true := by decide
/-- R100, D28: a code above 15 is refused. -/
theorem test_key_code_16_refused : refuses (perform (.setKey 16 true) State.reset) (.keyCodeOutOfRange 16) = true := by decide
/-- R252: a program of four bytes; the zero byte is not listed. -/
theorem test_launch : gives (perform (.launch [0x60, 0x00, 0x12, 0x02]) { State.reset with pc := 0x400, i := 7 })
    { State.reset with mem := [(0x200, 0x60), (0x202, 0x12), (0x203, 0x02)] } = true := by decide
/-- R30, R171: the cell 65 is the pixel of column 1 and row 1. -/
theorem test_pixel : { State.reset with fb := State.reset.fb.flip 65 }.pixel 1 1 = true ∧
    { State.reset with fb := State.reset.fb.flip 65 }.pixel 1 0 = false ∧
    { State.reset with fb := State.reset.fb.flip 65 }.pixel 0 1 = false := by decide

/-! ### Witnesses: for each statement with hypotheses, what meets them, clause by clause and at the bounds -/

/-- The last place an instruction can be fetched from, with the word 0x1234 there. -/
def atLastFetch : State := { State.reset with pc := 0xFFE, mem := [(0xFFE, 0x12), (0xFFF, 0x34)] }

theorem witness_FetchIsBigEndian : atLastFetch.pc.toNat ≤ 0xFFE ∧ atLastFetch.fetchWord = some 0x1234 := by decide

theorem witness_StepRunsDecodedInstruction : atLastFetch.schedule = [] ∧ atLastFetch.runState = .running ∧
    atLastFetch.pc.toNat ≤ 0xFFE ∧ decode (atLastFetch.mem.readWord atLastFetch.pc.toNat) = .instr (.jp 0x234) := by decide

theorem witness_ScheduledActionIsPerformedFirst :
    { atLastFetch with schedule := [.setKey 15 true, .cancel] }.schedule = .setKey 15 true :: [.cancel] ∧
    atLastFetch.runState = .running ∧ atLastFetch.pc.toNat ≤ 0xFFE ∧
    decode (atLastFetch.mem.readWord atLastFetch.pc.toNat) = .instr (.jp 0x234) := by decide

theorem witness_FetchOutsideMemoryIsFatal : let s := { State.reset with pc := 0xFFF }
    s.schedule = [] ∧ s.runState = .running ∧ 0xFFE < s.pc.toNat := by decide

theorem witness_UnknownWordIsFatal : let s := runs 0xF0FF { State.reset with pc := 0xFFE }
    s.schedule = [] ∧ s.runState = .running ∧ s.fetchWord = some 0xF0FF ∧ decode 0xF0FF = .unknown 0xF0FF := by decide

/-- Hypotheses of `HaltingStepChangesNothingElse`, with a fetched word and without one. -/
theorem witness_HaltingStepChangesNothingElse :
    (let s := runs 0xF0FF State.reset
     s.schedule = [] ∧ s.runState = .running ∧ ∃ t, step s = .next t ∧
       (t.runState == .halted .unknownInstruction 0x200 (some 0xF0FF)) = true) ∧
    (let s := { State.reset with pc := 0x10FE }
     s.schedule = [] ∧ s.runState = .running ∧ ∃ t, step s = .next t ∧
       (t.runState == .halted .fetchOutOfRange 0x10FE none) = true) :=
  ⟨⟨by decide, by decide, answers_iff.1 (by decide)⟩, ⟨by decide, by decide, answers_iff.1 (by decide)⟩⟩

/-- Each cause of the table at the bound of its condition, and just inside the bound no cause. -/
theorem witness_FatalCausesFollowTheTable :
    answers (exec (.call 0x300) { State.reset with sp := 16 }) (fun t => t.runState == .halted .stackOverflow 0x200 (some 0x2300)) ∧
    answers (exec .ret State.reset) (fun t => t.runState == .halted .stackUnderflow 0x200 (some 0x00EE)) ∧
    answers (exec (.drw 1 2 1) { State.reset with i := 4096 })
      (fun t => t.runState == .halted .memoryOutOfRange 0x200 (some 0xD121)) ∧
    answers (exec (.ldB 5) { State.reset with i := 4094 }) (fun t => t.runState == .halted .memoryOutOfRange 0x200 (some 0xF533)) ∧
    answers (exec (.ldMemVx 1) { State.reset with i := 4095 })
      (fun t => t.runState == .halted .memoryOutOfRange 0x200 (some 0xF155)) ∧
    answers (exec (.ldVxMem 15) { State.reset with i := 4081 })
      (fun t => t.runState == .halted .memoryOutOfRange 0x200 (some 0xFF65)) ∧
    answers (exec (.skp 2) (regs [(2, 16)])) (fun t => t.runState == .halted .keyIndexOutOfRange 0x200 (some 0xE29E)) ∧
    answers (exec (.sknp 2) (regs [(2, 16)])) (fun t => t.runState == .halted .keyIndexOutOfRange 0x200 (some 0xE2A1)) := by
  decide

theorem witness_CoreStepAlwaysAnswers :
    State.reset.schedule = [] ∧ (∀ c p w, State.reset.runState ≠ .halted c p w) ∧
    waiting.schedule = [] ∧ ∀ c p w, waiting.runState ≠ .halted c p w :=
  ⟨rfl, fun _ _ _ h => (nomatch h), rfl, fun _ _ _ h => (nomatch h)⟩

/-- A stopped state, in which the snapshot and a launch have a next state. -/
def stopped : State := { State.reset with runState := .halted .stackUnderflow 0x200 (some 0x00EE) }

theorem witness_HaltedIsAbsorbing : stopped.runState = .halted .stackUnderflow 0x200 (some 0x00EE) ∧ stopped.schedule = [] ∧
    gives (perform .readFramebuffer stopped) stopped = true ∧
    answers (perform (.launch [0x12, 0x00]) stopped) (fun t => t.runState == .running) = true := by decide

/-- Every host action that is enabled during a wait, in the mode that enables it. -/
theorem witness_WaitEndsOnlyByKeyPressOrCancel : waiting.runState = .waitKey 3 ∧ waiting.schedule = [] ∧
    waiting.config.timerMode = .perInstruction ∧
    answers (perform (.launch [0x12, 0x00]) waiting) (fun t => t.runState == .running) = true ∧
    answers (perform (.keyPress 15) waiting) (fun t => t.runState == .running) = true ∧
    answers (perform .cancel waiting) (fun t => t.runState == .halted .cancelled 0x200 (some 0xF30A)) = true ∧
    answers (perform (.setKey 15 true) waiting) (fun t => t.runState == .waitKey 3) = true ∧
    answers (perform (.step 0xB7) waiting) (fun t => t.runState == .waitKey 3) = true ∧
    gives (perform .readFramebuffer waiting) waiting = true ∧
    answers (perform (.keyPress 0) { waiting with config := ⟨.externalTick, .perAxis⟩ }) (fun t => t.dt == 7 && t.st == 2) = true ∧
    answers (perform .tick { waiting with config := ⟨.externalTick, .perAxis⟩ }) (fun t => t.dt == 6 && t.st == 1) = true := by
  decide

theorem witness_EnabledActionsFollowTheTable :
    (HostAction.setKey 15 true).wellFormed = true ∧ (HostAction.keyPress 15).wellFormed = true ∧ HostAction.tick.wellFormed = true ∧
    (HostAction.launch []).wellFormed = true ∧ HostAction.cancel.wellFormed = true ∧
    waiting.runState = .waitKey 3 ∧ gives (perform (.step 0xB7) waiting) waiting = true := by decide

/-- Both sides of `MalformedActionsAreRefused`. -/
theorem witness_MalformedActionsAreRefused : (HostAction.keyPress 16).wellFormed = false ∧
    refuses (perform (.keyPress 16) waiting) (.keyCodeOutOfRange 16) = true ∧
    refuses (perform (.keyPress 15) waiting) (.keyCodeOutOfRange 15) = false := by decide

theorem witness_SetKeyWritesOneFlag : (∀ c p w, waiting.runState ≠ .halted c p w) ∧ (0 : Fin 16) ≠ 15 :=
  ⟨fun _ _ _ h => (nomatch h), by decide⟩

/-- A wait at the last address an instruction can be fetched from. -/
theorem witness_CancelEndsTheRun : let s := { runs 0xF30A { State.reset with pc := 0xFFE } with runState := .waitKey 3 }
    s.runState = .waitKey 3 ∧ s.pc.toNat ≤ 0xFFE ∧
    gives (perform .cancel s) { s with runState := .halted .cancelled 0xFFE (some 0xF30A) } = true := by decide

/-- Both modes; a timer at 1 and one at 0. -/
theorem witness_HostTickCountsDown :
    (let s := { State.reset with config := ⟨.externalTick, .perAxis⟩, dt := 1, st := 0 }
     s.config.timerMode = .externalTick ∧ gives (perform .tick s) { s with dt := 0 } = true) ∧
    State.reset.config.timerMode = .perInstruction := by decide

theorem witness_LaunchLoadsTheProgram : (List.replicate 3584 (0x12 : Byte)).length ≤ 3584 ∧
    3584 < (List.replicate 3585 (0x12 : Byte)).length := by
  rw [List.length_replicate, List.length_replicate]
  decide

/-- x = 1 and x = 15, with the sums 255 and 256. -/
theorem witness_AddRegistersSetsCarry : (1 : RegIdx) ≠ 15 ∧ (2 : RegIdx) ≠ 1 ∧ (2 : RegIdx) ≠ 15 ∧
    answers (exec (.addReg 1 2) (regs [(1, 0xFF), (2, 0)])) (fun t => t.v[15] == 0 && t.v[1] == 0xFF) ∧
    answers (exec (.addReg 1 2) (regs [(1, 0xFF), (2, 1)])) (fun t => t.v[15] == 1 && t.v[1] == 0) ∧
    answers (exec (.addReg 15 2) (regs [(15, 0xFF), (2, 1)])) (fun t => t.v[15] == 0) := by decide

/-- Each clause: AL16 (equal operands), AL19, AL21 and AL22. -/
theorem witness_SubtractSetsNotBorrow :
    answers (exec (.sub 1 2) (regs [(1, 5), (2, 5), (15, 1)])) (fun t => t.v[15] == 0 && t.v[1] == 0) ∧
    answers (exec (.sub 15 1) (regs [(15, 2), (1, 3)])) (fun t => t.v[15] == 0xFD) ∧
    answers (exec (.sub 1 15) (regs [(1, 2), (15, 3)])) (fun t => t.v[15] == 0 && t.v[1] == 2) ∧
    answers (exec (.sub 15 15) (regs [(15, 7)])) (fun t => t.v[15] == 0) := by decide

/-- Each clause: AL25 (equal operands), AL26, AL29 and AL30. -/
theorem witness_ReverseSubtractSetsNotBorrow :
    answers (exec (.subn 1 2) (regs [(1, 5), (2, 5), (15, 1)])) (fun t => t.v[15] == 0 && t.v[1] == 0) ∧
    answers (exec (.subn 15 1) (regs [(15, 2), (1, 9)])) (fun t => t.v[15] == 8) ∧
    answers (exec (.subn 1 15) (regs [(1, 9), (15, 2)])) (fun t => t.v[15] == 0 && t.v[1] == 0xF7) ∧
    answers (exec (.subn 15 15) (regs [(15, 7)])) (fun t => t.v[15] == 0) := by decide

theorem witness_RandomByteIsMasked : { State.reset with rndIn := some 0xB7 }.rndIn = some 0xB7 := by decide

/-- sp = 15 and sp = 16 (CF6, CF7). -/
theorem witness_CallPushesItsOwnAddress : { State.reset with sp := 15 }.sp.val < 16 ∧ { State.reset with sp := 16 }.sp.val = 16 ∧
    answers (exec (.call 0x300) { State.reset with sp := 15 }) (fun t => t.sp == 16 && t.stack[15] == 0x200 && t.pc == 0x300) := by
  decide

/-- sp = 1, sp = 16 (CF3) and sp = 0. -/
theorem witness_ReturnGoesAfterTheCall : { State.reset with sp := 1 }.sp.val = 0 + 1 ∧ State.reset.sp.val = 0 ∧
    answers (exec .ret { State.reset with sp := 16, stack := State.reset.stack.set 15 0x21E })
      (fun t => t.sp == 15 && t.pc == 0x220) := by decide

theorem witness_CallThenReturnRoundTrip :
    let s := { State.reset with mem := [(0x200, 0x23), (0x301, 0xEE)], sp := 15 }
    s.schedule = [] ∧ s.runState = .running ∧ s.sp.val < 16 ∧ s.pc.toNat ≤ 0xFFE ∧
    s.mem.readWord s.pc.toNat = encode (.call 0x300) ∧ (0x300 : Addr).toNat ≤ 0xFFE ∧
    s.mem.readWord (0x300 : Addr).toNat = encode .ret := by decide

/-- I = 4093 (IM13) and I = 4094 (IM14). -/
theorem witness_StoreDecimalDigits :
    let s := { regs [(5, 123)] with i := 0xFFD }
    let t := { regs [(5, 123)] with i := 0xFFE }
    s.mem.wf ∧ t.mem.wf ∧ s.i.toNat + 2 ≤ 4095 ∧ 4095 < t.i.toNat + 2 ∧
    answers (exec (.ldB 5) s) (fun u => u.mem == [(0xFFD, 1), (0xFFE, 2), (0xFFF, 3)]) := by decide

/-- I + X = 4095 with X = 0 and X = 15, and I + X = 4096 (IM16, IM17). -/
theorem witness_StoreRegisters :
    let s := { regs [(0, 0xAB)] with i := 0xFFF }
    let t := { regs [(15, 0xCD)] with i := 0xFF0 }
    s.mem.wf ∧ s.i.toNat + (0 : RegIdx).val ≤ 4095 ∧ t.i.toNat + (15 : RegIdx).val ≤ 4095 ∧ 4095 < s.i.toNat + (1 : RegIdx).val ∧
    answers (exec (.ldMemVx 0) s) (fun u => u.mem == [(0xFFF, 0xAB)] && u.i == 0x1000) ∧
    answers (exec (.ldMemVx 15) t) (fun u => u.mem == [(0xFFF, 0xCD)] && u.i == 0x1000) := by decide

/-- I + X = 4095 with X = 0 and X = 15, and I + X = 4096. -/
theorem witness_LoadRegisters :
    let s := { State.reset with i := 0xFFF, mem := [(0xFFF, 0x77)] }
    let t := { s with i := 0xFF0 }
    s.i.toNat + (0 : RegIdx).val ≤ 4095 ∧ t.i.toNat + (15 : RegIdx).val ≤ 4095 ∧ 4095 < s.i.toNat + (1 : RegIdx).val ∧
    answers (exec (.ldVxMem 0) s) (fun u => u.v[0] == 0x77 && u.v[15] == 0 && u.i == 0x1000) ∧
    answers (exec (.ldVxMem 15) t) (fun u => u.v[15] == 0x77 && u.v[0] == 0 && u.i == 0x1000) := by decide

/-- The last stores that are not fatal, each over the last word of memory and over the next instruction, and a store that covers
one byte of a word only. -/
theorem witness_StoreIsSeenByNextFetch :
    (let s := { regs [(0, 0x12), (1, 0x34)] with pc := 0xFFC, i := 0xFFE }
     s.mem.wf ∧ s.i.toNat + (1 : RegIdx).val ≤ 4095 ∧ (0xFFE : Word).toNat ≤ 0xFFE ∧
     answers (exec (.ldMemVx 1) s) (fun t => t.pc == 0xFFE && t.fetchWord == some 0x1234)) ∧
    (let s := { regs [(5, 123)] with pc := 0xFFC, i := 0xFFD }
     s.mem.wf ∧ s.i.toNat + 2 ≤ 4095 ∧
     answers (exec (.ldB 5) s) (fun t => t.pc == 0xFFE && t.fetchWord == some 0x0203)) ∧
    (let s := { regs [(0, 0x12)] with i := 0x203, mem := [(0x202, 0xAB), (0x203, 0xCD), (0x204, 0xEF)] }
     s.mem.wf ∧ answers (exec (.ldMemVx 0) s) (fun t => t.fetchWord == some 0xAB12)) := by decide

/-- n = 0 with I beyond memory (DS9), the last row at 4095 (DS11) and at 4096 (DS12, DS10). -/
theorem witness_DrawSpriteFlipsAndCollides :
    (let s := { regs [(15, 1)] with i := 0x1234 }
     (0 : Nibble).toNat = 0 ∧ answers (exec (.drw 1 2 0) s) (fun t => t.v[15] == 0 && t.runState == .running)) ∧
    (let s := { regs [(15, 1)] with i := 0xFF1 }
     s.i.toNat + (15 : Nibble).toNat - 1 ≤ 4095 ∧ answers (exec (.drw 1 2 15) s) (fun t => t.v[15] == 0 && t.runState == .running)) ∧
    (let s := { regs [(15, 1)] with i := 0xFF2 }
     1 ≤ (15 : Nibble).toNat ∧ 4095 < s.i.toNat + (15 : Nibble).toNat - 1 ∧
       answers (exec (.drw 1 2 15) s) (fun t => t.v[15] == 1 && t.runState == .halted .memoryOutOfRange 0x200 (some 0xD12F))) ∧
    (let s := { regs [(15, 1)] with i := 0x1000 }
     1 ≤ (1 : Nibble).toNat ∧ 4095 < s.i.toNat + (1 : Nibble).toNat - 1) := by decide

/-- A sprite at the end of memory whose first draw meets no cell that was 1. -/
theorem witness_DrawTwiceErases : let s := { State.reset with i := 0xFFF, mem := [(0xFFF, 0xFF)] }
    (0 : RegIdx) ≠ 15 ∧ s.i.toNat + (1 : Nibble).toNat ≤ 4096 ∧ s.mem.read (s.i.toNat + 0) ≠ 0 ∧
    answers (exec (.drw 0 0 1) s) (fun t => t.v[15] == 0 && t.fb != s.fb &&
      answers (exec (.drw 0 0 1) t) (fun u => u.v[15] == 1 && u.fb == s.fb)) := by decide

theorem witness_WrapModesAgreeInsideTheRow : let s := { regs [(1, 56)] with i := 0x300, mem := [(0x300, 0x81)] }
    s.v[(1 : RegIdx)].toNat ≤ 56 ∧ answers (exec (.drw 1 2 1) s) (fun t => t.fb == s.fb.set 0 0x8100000000000000) := by decide

/-- V[x] = 15 and V[x] = 16. -/
theorem witness_KeySkipsReadTheHeldFlag :
    (regs [(2, 15)]).v[(2 : RegIdx)].toNat < 16 ∧ 15 < (regs [(2, 16)]).v[(2 : RegIdx)].toNat ∧
    answers (exec (.skp 2) { regs [(2, 15)] with keypad := State.reset.keypad.set 15 true }) (fun t => t.pc == 0x204) := by decide

/-- A wait in each timer mode. -/
theorem witness_KeyWaitCompletesByKeyPress : waiting.runState = .waitKey 3 ∧ waiting.config.timerMode = .perInstruction ∧
    { waiting with config := ⟨.externalTick, .perAxis⟩ }.runState = .waitKey 3 ∧
    { waiting with config := ⟨.externalTick, .perAxis⟩ }.config.timerMode = .externalTick := by decide

theorem witness_ReadDelayTimerBeforeTheTick : let s := { State.reset with dt := 5 }
    s.runState = .running ∧ s.config.timerMode = .perInstruction ∧
    gives (exec (.ldVxDt 3) s) { s with v := s.v.set 3 5, pc := 0x202 } = true := by decide

theorem witness_SetTimersThenTick :
    gives (exec (.ldDtVx 3) (regs [(3, 10)])) { regs [(3, 10)] with dt := 10, pc := 0x202 } = true ∧
    gives (exec (.ldStVx 3) (regs [(3, 10)])) { regs [(3, 10)] with st := 10, pc := 0x202 } = true := by decide

/-- A step that completes, in each timer mode, one that suspends and one that is fatal. -/
theorem witness_EveryCompletedStepTicksOnce :
    (let s := runs 0xF315 (regs [(3, 10)])
     s.schedule = [] ∧ s.runState = .running ∧ s.pc.toNat ≤ 0xFFE ∧ decode (s.mem.readWord s.pc.toNat) = .instr (.ldDtVx 3) ∧
     s.config.timerMode = .perInstruction ∧ answers (step s) (fun t => t.runState == .running && t.dt == 9)) ∧
    (let s := runs 0xF315 { regs [(3, 10)] with config := ⟨.externalTick, .perAxis⟩ }
     s.config.timerMode = .externalTick ∧ answers (step s) (fun t => t.runState == .running && t.dt == 10)) ∧
    (let s := runs 0xF30A { State.reset with dt := 7 }
     answers (step s) (fun t => t.runState == .waitKey 3 && t.dt == 7)) ∧
    (let s := runs 0x00EE { State.reset with dt := 7 }
     answers (step s) (fun t => t.runState == .halted .stackUnderflow 0x200 (some 0x00EE) && t.dt == 7)) := by decide

theorem witness_ExternalTickCoversPerInstruction : let s := runs 0x6000 { State.reset with dt := 5 }
    s.schedule = [] ∧ s.runState = .running ∧ s.config.timerMode = .perInstruction ∧
    answers (step s) (fun t => t.runState == .running && t.dt == 4) = true := by decide

/-- For each clause an instruction that writes the element. -/
theorem witness_InstructionsWriteOnlyTheirElements :
    answers (exec (.ldB 0) (regs [(0, 1)])) (fun t => decide (t.mem ≠ State.reset.mem)) ∧
    answers (exec (.ldImm 3 7) State.reset) (fun t => decide (t.v ≠ State.reset.v)) ∧
    answers (exec (.ldI 7) State.reset) (fun t => decide (t.i ≠ State.reset.i)) ∧
    answers (exec (.call 0x300) State.reset) (fun t => decide (t.stack ≠ State.reset.stack) && decide (t.sp ≠ State.reset.sp)) ∧
    answers (exec .ret { State.reset with sp := 1 }) (fun t => decide (t.sp ≠ 1)) ∧
    answers (exec (.ldDtVx 0) (regs [(0, 1)])) (fun t => decide (t.dt ≠ State.reset.dt)) ∧
    answers (exec (.ldStVx 0) (regs [(0, 1)])) (fun t => decide (t.st ≠ State.reset.st)) ∧
    answers (exec .cls { State.reset with fb := State.reset.fb.flip 5 }) (fun t => decide (t.fb ≠ State.reset.fb.flip 5)) ∧
    answers (exec (.ldVxK 3) State.reset) (fun t => t.runState == .waitKey 3 && decide (t.runState ≠ State.reset.runState)) ∧
    answers (exec .ret State.reset) (fun t => t.runState == .halted .stackUnderflow 0x200 (some (encode .ret))) ∧
    answers (exec (.rnd 3 0) { State.reset with rndIn := some 1 }) (fun t => decide (t.rndIn ≠ some 1)) := by decide

/-- A writer of the flag, and one that names VF as its destination. -/
theorem witness_FlagChangesOnlyByItsWriters :
    answers (exec (.addReg 1 2) (regs [(1, 0xFF), (2, 1)])) (fun t => decide (t.v[15] ≠ (regs [(1, 0xFF), (2, 1)]).v[15])) ∧
    answers (exec (.ldImm 15 7) State.reset) (fun t => decide (t.v[15] ≠ State.reset.v[15])) := by decide

theorem witness_SoundTimerAndKeypadAreUnread : (∀ x, Instr.ldVxK 3 ≠ .ldStVx x) ∧ ∀ x, Instr.ldVxK 3 ≠ .skp x ∧ Instr.ldVxK 3 ≠ .sknp x :=
  ⟨fun _ h => (nomatch h), fun _ => ⟨fun h => (nomatch h), fun h => (nomatch h)⟩⟩

/-- Stacks that differ only at and above sp = 1, for a return and for a call. -/
theorem witness_StaleStackEntriesAreUnobservable :
    let s := { State.reset with sp := 1, stack := State.reset.stack.set 0 0x204 }
    let k := s.stack.set 1 0x777
    (∀ j : Fin 16, j.val < s.sp.val → k[j] = s.stack[j]) ∧ k ≠ s.stack ∧
    answers (exec .ret s) (fun t => t.pc == 0x206) ∧ answers (exec (.call 0x300) s) (fun t => t.sp == 2) := by decide

/-- CF4, and a self-jump at the last address an instruction can be fetched from. -/
theorem witness_SelfJumpIsAFixedPoint :
    (let s := runs 0x1200 State.reset
     s.schedule = [] ∧ s.runState = .running ∧ s.pc.toNat ≤ 0xFFE ∧
     (s.mem.readWord s.pc.toNat).toNat = 0x1000 + s.pc.toNat ∧ s.dt = 0 ∧ s.st = 0) ∧
    (let s := runs 0x1FFE { State.reset with pc := 0xFFE }
     s.pc.toNat ≤ 0xFFE ∧ (s.mem.readWord s.pc.toNat).toNat = 0x1000 + s.pc.toNat) := by decide

/-- A running state with a return address in use that steps on, and a waiting one that the host wakes. -/
theorem witness_EveryStepKeepsTheInvariant :
    (let s := runs 0xBFFF { regs [(0, 0xFF)] with sp := 1, stack := State.reset.stack.set 0 0xFFE }
     s.Inv ∧ ∃ t, step s = .next t ∧ (t.pc == 0x10FE) = true) ∧
    (let s := { waiting with schedule := [.keyPress 15] }
     s.Inv ∧ ∃ t, step s = .next t ∧ (t.pc == 0x202) = true) :=
  ⟨⟨⟨by decide, by decide, by decide, trivial⟩, answers_iff.1 (by decide)⟩,
    ⟨⟨by decide, by decide, by decide, (by decide : waiting.fetchWord = some (encode (.ldVxK 3)))⟩, answers_iff.1 (by decide)⟩⟩

/-- A stopped state with pc where nothing can be fetched, and a running one at the last pc. -/
theorem witness_PlacedWordIsWhatRuns : stopped.mem.wf ∧ decode (tableWord 16 0x6A2C) = .instr (.ldImm 10 0x2C) ∧
    atLastFetch.mem.wf ∧ atLastFetch.pc.toNat ≤ 0xFFE ∧
    answers (step ({ stopped with pc := 0xFFF }.withFetchWord 16 0x6A2C)) (fun t => t.v[10] == 0x2C && t.pc == 0x202) = true ∧
    answers (step (atLastFetch.withFetchWord 16 0x6A2C)) (fun t => t.v[10] == 0x2C && t.pc == 0x1000) = true := by decide

end Sys2Proof.Tests
end

section
/-! The state after reset, element by element (spec/10_state.md R36). -/

namespace Sys2Proof.Machine

/-- A memory that lists no byte is all zero (R21). -/
theorem Memory.read_nil (a : Nat) : Memory.read [] a = 0 := rfl

/-- Settles O57: each array of the reset state is one value repeated, and each scalar element is stated by its definition (R36). -/
theorem resetZeroesAllButPc : Obligations.ResetZeroesAllButPc := by
  have hv (x : RegIdx) : State.reset.v[x] = 0 := Vector.getElem_replicate x.isLt
  have hstack (j : Fin 16) : State.reset.stack[j] = 0 := Vector.getElem_replicate j.isLt
  have hkeypad (c : Fin 16) : State.reset.keypad[c] = false := Vector.getElem_replicate c.isLt
  have hcell (k : Nat) (_ : k < 2048) : State.reset.fb.cell k = false := by
    rw [Framebuffer.reset_fb, Framebuffer.cell_clear]
  exact ⟨Memory.read_nil, hv, rfl, rfl, hstack, rfl, rfl, rfl, hcell, hkeypad, rfl⟩

end Sys2Proof.Machine
end

section
/-! The word that a fetch reads (spec/20_memory.md R50). -/

namespace Sys2Proof.Machine

/-- A word is 256 times its high byte plus its low byte (R50). -/
theorem wordOfBytes_toNat (hi lo : Byte) : (wordOfBytes hi lo).toNat = hi.toNat * 256 + lo.toNat := by
  rw [wordOfBytes, BitVec.toNat_append, ← Nat.shiftLeft_add_eq_or_of_lt lo.isLt, Nat.shiftLeft_eq]

/-- A two-byte read is big-endian: the byte at the lower address is the high one (R50). -/
theorem Memory.readWord_toNat (m : Memory) (a : Nat) :
    (m.readWord a).toNat = (m.read a).toNat * 256 + (m.read (a + 1)).toNat :=
  wordOfBytes_toNat _ _

/-- Settles O6: inside memory a fetch is the two-byte read at pc, which is big-endian (R50). -/
theorem fetchIsBigEndian : Obligations.FetchIsBigEndian := by
  intro s hpc
  have hfetch : s.fetchWord = some (s.mem.readWord s.pc.toNat) := fetchWord_eq_some.2 ⟨hpc, rfl⟩
  exact ⟨_, hfetch, s.mem.readWord_toNat s.pc.toNat⟩

end Sys2Proof.Machine
end

section
/-! The control transfer instructions: each arm of `exec` as one equation, with the whole next state (spec/41_control_flow.md R111
to R118). -/

namespace Sys2Proof.Machine

/-! ### Jumps (R113, R114) -/

/-- `1NNN` on the whole state (R114). -/
theorem exec_jp (addr : Addr) (s : State) : exec (.jp addr) s = .next (s.jump (addr.setWidth 16)) := rfl

/-- `BNNN` on the whole state (R113). -/
theorem exec_jpV0 (addr : Addr) (s : State) :
    exec (.jpV0 addr) s = .next (s.jump (addr.setWidth 16 + (s.readV 0).setWidth 16)) := rfl

/-- A 12-bit address plus a byte fits in 16 bits, so the target of `BNNN` is the exact sum (R113, D12). -/
theorem jpV0_target_toNat (addr : Addr) (b : Byte) :
    (addr.setWidth 16 + b.setWidth 16 : Word).toNat = addr.toNat + b.toNat := by
  have haddr := addr.isLt
  have hb := b.isLt
  rw [BitVec.toNat_add, BitVec.toNat_setWidth, BitVec.toNat_setWidth]
  omega

/-- Settles O28: the jump writes pc alone, and the address extended to a word is the address as a number. -/
theorem jumpSetsPc : Obligations.JumpSetsPc := by
  intro s addr
  rw [exec_jp, ← BitVec.ofNat_toNat, State.jump]

/-- Settles O29: the jump writes pc alone, and the 16-bit sum never wraps. -/
theorem jumpWithOffsetAddsV0 : Obligations.JumpWithOffsetAddsV0 :=
  fun s addr => ⟨_, exec_jpV0 addr s, jpV0_target_toNat addr s.v[0]⟩

/-! ### Call and return (R111, R112) -/

/-- `2NNN` on a stack that is not full (R112). -/
theorem exec_call_of_lt {s : State} (addr : Addr) (h : s.sp.val < stackDepth) :
    exec (.call addr) s = .next ((s.push s.pc h).jump (addr.setWidth 16)) := dif_pos h

/-- `2NNN` on a full stack (R112, R223). -/
theorem exec_call_of_full {s : State} (addr : Addr) (h : s.sp.val = stackDepth) :
    exec (.call addr) s = .next (s.raise .stackOverflow (some (encode (.call addr)))) :=
  dif_neg (by omega)

/-- `00EE` on a stack that is not empty (R111). -/
theorem exec_ret_of_pos {s : State} (h : 0 < s.sp.val) :
    exec .ret s = .next ((s.drop.jump (s.top h)).advance 2) := dif_pos h

/-- `00EE` on an empty stack (R111, R223). -/
theorem exec_ret_of_empty {s : State} (h : s.sp.val = 0) :
    exec .ret s = .next (s.raise .stackUnderflow (some (encode .ret))) :=
  dif_neg (by omega)

/-- The word of a call as a number: 0x2000 plus its address (R76). -/
theorem encode_call_eq_ofNat (addr : Addr) : encode (.call addr) = BitVec.ofNat 16 (0x2000 + addr.toNat) :=
  packAddr_eq_ofNat 0x2 addr

/-- A push writes the entry at sp (R28). -/
theorem State.push_stack_sp (s : State) (a : Word) (h : s.sp.val < stackDepth) : (s.push a h).stack[s.sp.val] = a :=
  Vector.getElem_set_self h

/-- A push leaves every entry but the one at sp (R28). -/
theorem State.push_stack_other (s : State) (a : Word) (h : s.sp.val < stackDepth) {j : Fin 16} (hj : j.val ≠ s.sp.val) :
    (s.push a h).stack[j] = s.stack[j] :=
  Vector.getElem_set_ne h j.isLt hj.symm

/-- Settles O30: below the bound the call is a push and a jump; at the bound it is the fatal stop with its own word. -/
theorem callPushesItsOwnAddress : Obligations.CallPushesItsOwnAddress := by
  intro s addr
  constructor
  · intro h
    have hpc : (addr.setWidth 16 : Word).toNat = addr.toNat := BitVec.toNat_setWidth_of_le (by decide)
    exact ⟨_, exec_call_of_lt addr h, hpc, rfl, s.push_stack_sp s.pc h, fun _ hj => s.push_stack_other s.pc h hj, rfl⟩
  · intro h
    rw [exec_call_of_full addr h, encode_call_eq_ofNat, State.raise]

/-- Settles O31: with an entry in use the return drops it and goes 2 beyond it; with none it is the fatal stop. -/
theorem returnGoesAfterTheCall : Obligations.ReturnGoesAfterTheCall := by
  intro s
  constructor
  · intro k h
    obtain rfl : k = s.sp.val - 1 := by omega
    exact ⟨s.drop.sp, rfl, exec_ret_of_pos (by omega)⟩
  · exact exec_ret_of_empty

/-! ### Register skips (R115 to R118) -/

/-- A conditional skip writes pc alone (R97). -/
theorem State.skipIf_eq (s : State) (c : Bool) : s.skipIf c = { s with pc := s.pc + if c then 4 else 2 } := by
  cases c <;> rfl

/-- A skip on equal bytes, its condition read as a proposition (R115, R117). -/
theorem State.skipIf_beq (s : State) (a b : Byte) :
    s.skipIf (a == b) = { s with pc := s.pc + if a = b then 4 else 2 } := by
  simp only [State.skipIf_eq, beq_iff_eq]

/-- A skip on different bytes, its condition read as a proposition (R116, R118). -/
theorem State.skipIf_bne (s : State) (a b : Byte) :
    s.skipIf (a != b) = { s with pc := s.pc + if a = b then 2 else 4 } := by
  simp only [State.skipIf_eq, bne_iff_ne, ne_eq, ite_not]

/-- `3XKK` on the whole state (R115). -/
theorem exec_seImm (x : RegIdx) (kk : Byte) (s : State) :
    exec (.seImm x kk) s = .next (s.skipIf (s.readV x == kk)) := rfl

/-- `4XKK` on the whole state (R116). -/
theorem exec_sneImm (x : RegIdx) (kk : Byte) (s : State) :
    exec (.sneImm x kk) s = .next (s.skipIf (s.readV x != kk)) := rfl

/-- `5XY0` on the whole state (R117). -/
theorem exec_seReg (x y : RegIdx) (s : State) :
    exec (.seReg x y) s = .next (s.skipIf (s.readV x == s.readV y)) := rfl

/-- `9XY0` on the whole state (R118). -/
theorem exec_sneReg (x y : RegIdx) (s : State) :
    exec (.sneReg x y) s = .next (s.skipIf (s.readV x != s.readV y)) := rfl

/-- Settles O33: each of the four instructions is a skip on equal or on different bytes. -/
theorem skipsAdvanceByFourOrTwo : Obligations.SkipsAdvanceByFourOrTwo := by
  intro s x y kk
  rw [exec_seImm, exec_sneImm, exec_seReg, exec_sneReg]
  simp only [State.skipIf_beq, State.skipIf_bne]
  exact ⟨rfl, rfl, rfl, rfl⟩

end Sys2Proof.Machine
end

section
/-! The register and arithmetic instructions: each arm of `exec` as one equation, and the bytes that the flag-writing ones leave
in VF and in V[x], in every aliased form (spec/42_alu.md R131 to R138). -/

namespace Sys2Proof.Machine

/-! ### The flag and the result (R24, R138) -/

/-- The flag of a condition as a number (R24). -/
theorem flagByte_decide_toNat (p : Prop) [Decidable p] : (flagByte (decide p)).toNat = if p then 1 else 0 := by
  by_cases hp : p
  · rw [decide_eq_true hp, if_pos hp]; rfl
  · rw [decide_eq_false hp, if_neg hp]; rfl

/-- The carry flag as a number (R134). -/
theorem flagByte_carry_toNat (a b : Byte) : (flagByte (carry a b)).toNat = if 255 < a.toNat + b.toNat then 1 else 0 :=
  flagByte_decide_toNat _

/-- The NOT-borrow flag as a number (R138). -/
theorem flagByte_notBorrow_toNat (a b : Byte) : (flagByte (notBorrow a b)).toNat = if b.toNat < a.toNat then 1 else 0 :=
  flagByte_decide_toNat _

theorem State.readV_setFlag_vf (s : State) (c : Bool) : (s.setFlag c).readV vf = flagByte c :=
  s.readV_writeV_same vf _

theorem State.readV_setFlag_other (s : State) (c : Bool) {r : RegIdx} (h : r ≠ vf) : (s.setFlag c).readV r = s.readV r :=
  s.readV_writeV_other _ h

/-- A result in another register than VF leaves the flag that was set before it. -/
theorem State.readV_vf_of_result (s : State) (c : Bool) {x : RegIdx} (b : Byte) (h : x ≠ vf) :
    ((s.setFlag c).writeV x b).readV vf = flagByte c := by
  rw [State.readV_writeV_other _ b h.symm, State.readV_setFlag_vf]

/-- A flag and a result in V[x] leave every register but those two. -/
theorem State.readV_other_of_result (s : State) (c : Bool) {x r : RegIdx} (b : Byte) (hx : r ≠ x) (hvf : r ≠ vf) :
    ((s.setFlag c).writeV x b).readV r = s.readV r := by
  rw [State.readV_writeV_other _ b hx, State.readV_setFlag_other _ c hvf]

/-! ### Addition with carry (R134) -/

/-- `8XY4` on the whole state (R134). -/
theorem exec_addReg (x y : RegIdx) (s : State) :
    exec (.addReg x y) s =
      .next (((s.setFlag (carry (s.readV x) (s.readV y))).writeV x (s.readV x + s.readV y)).advance 2) := rfl

/-- Settles O24: the sum is written last, over the flag when x = 15. -/
theorem addRegistersSetsCarry : Obligations.AddRegistersSetsCarry := by
  intro s x y sum
  refine ⟨_, exec_addReg x y s, ?sum, ?flag, ?frame⟩
  case sum =>
    calc
      _ = (s.readV x + s.readV y).toNat := congrArg BitVec.toNat (State.readV_writeV_same _ x _)
      _ = sum % 256 := BitVec.toNat_add _ _
  case flag =>
    intro hx
    calc
      _ = (flagByte (carry (s.readV x) (s.readV y))).toNat := congrArg BitVec.toNat (s.readV_vf_of_result _ _ hx)
      _ = if 255 < sum then 1 else 0 := flagByte_carry_toNat _ _
  case frame => exact fun _ hx hvf => s.readV_other_of_result _ _ hx hvf

/-! ### Subtraction with NOT-borrow (R135, R136) -/

/-- What `8XY5` and `8XY7` do to the registers: VF gets the NOT-borrow flag of `V[p] - V[q]`, then V[x] the difference of the
two registers as they are after that (R9, D10). -/
def State.subtract (s : State) (x p q : RegIdx) : State :=
  let t := s.setFlag (notBorrow (s.readV p) (s.readV q))
  t.writeV x (t.readV p - t.readV q)

/-- `8XY5` on the whole state (R135). -/
theorem exec_sub (x y : RegIdx) (s : State) : exec (.sub x y) s = .next ((s.subtract x x y).advance 2) := rfl

/-- `8XY7` on the whole state (R136). -/
theorem exec_subn (x y : RegIdx) (s : State) : exec (.subn x y) s = .next ((s.subtract x y x).advance 2) := rfl

/-- The wrapped difference of two bytes as a number (R135). -/
theorem byte_sub_toNat (a b : Byte) : (a - b).toNat = (a.toNat + 256 - b.toNat) % 256 := by
  have hb := b.isLt
  rw [BitVec.toNat_sub]
  omega

namespace State

variable (s : State) {x p q : RegIdx}

theorem subtract_readV_vf (h : x ≠ vf) :
    ((s.subtract x p q).readV vf).toNat = if (s.readV q).toNat < (s.readV p).toNat then 1 else 0 := by
  rw [subtract, readV_vf_of_result _ _ _ h, flagByte_notBorrow_toNat]

theorem subtract_readV_other {r : RegIdx} (hx : r ≠ x) (hvf : r ≠ vf) : (s.subtract x p q).readV r = s.readV r :=
  s.readV_other_of_result _ _ hx hvf

theorem subtract_readV_dest (x p q : RegIdx) :
    (s.subtract x p q).readV x = (s.setFlag (notBorrow (s.readV p) (s.readV q))).readV p -
      (s.setFlag (notBorrow (s.readV p) (s.readV q))).readV q :=
  readV_writeV_same _ x _

/-- Without VF as an operand, V[x] gets the wrapped difference of the two registers. -/
theorem subtract_readV_dest_of_ne (hp : p ≠ vf) (hq : q ≠ vf) :
    ((s.subtract x p q).readV x).toNat = ((s.readV p).toNat + 256 - (s.readV q).toNat) % 256 := by
  rw [subtract_readV_dest, readV_setFlag_other _ _ hp, readV_setFlag_other _ _ hq, byte_sub_toNat]

/-- With VF as the minuend, the new flag is what is subtracted from (D10). -/
theorem subtract_readV_dest_of_minuend_vf (hq : q ≠ vf) :
    ((s.subtract x vf q).readV x).toNat =
      ((if (s.readV q).toNat < (s.readV vf).toNat then 1 else 0) + 256 - (s.readV q).toNat) % 256 := by
  rw [subtract_readV_dest, readV_setFlag_vf, readV_setFlag_other _ _ hq, byte_sub_toNat, flagByte_notBorrow_toNat]

/-- With VF as the subtrahend, the new flag is what is subtracted (D10). -/
theorem subtract_readV_dest_of_subtrahend_vf (hp : p ≠ vf) :
    ((s.subtract x p vf).readV x).toNat =
      ((s.readV p).toNat + 256 - if (s.readV vf).toNat < (s.readV p).toNat then 1 else 0) % 256 := by
  rw [subtract_readV_dest, readV_setFlag_vf, readV_setFlag_other _ _ hp, byte_sub_toNat, flagByte_notBorrow_toNat]

/-- A register minus itself is 0, whatever the flag did to it before (D10). -/
theorem subtract_readV_dest_of_same (x p : RegIdx) : (s.subtract x p p).readV x = 0 :=
  (s.subtract_readV_dest x p p).trans (BitVec.sub_self _)

end State

/-- Settles O25: `8XY5` subtracts V[y] from V[x] after the flag, with a case for each of x and y that is 15. -/
theorem subtractSetsNotBorrow : Obligations.SubtractSetsNotBorrow := by
  intro s x y a b f
  refine ⟨_, exec_sub x y s, ?flag, ?neither, ?onlyX, ?onlyY, ?both, ?frame⟩
  case flag => exact s.subtract_readV_vf
  case neither => exact s.subtract_readV_dest_of_ne
  case onlyX => rintro rfl hy; exact s.subtract_readV_dest_of_minuend_vf hy
  case onlyY => rintro hx rfl; exact s.subtract_readV_dest_of_subtrahend_vf hx
  case both => rintro rfl rfl; exact congrArg BitVec.toNat (s.subtract_readV_dest_of_same vf vf)
  case frame => exact fun _ => s.subtract_readV_other

/-- Settles O26: `8XY7` subtracts V[x] from V[y] after the flag, with a case for each of x and y that is 15. -/
theorem reverseSubtractSetsNotBorrow : Obligations.ReverseSubtractSetsNotBorrow := by
  intro s x y a b f
  refine ⟨_, exec_subn x y s, ?flag, ?neither, ?onlyX, ?onlyY, ?both, ?frame⟩
  case flag => exact s.subtract_readV_vf
  case neither => exact fun hx hy => s.subtract_readV_dest_of_ne hy hx
  case onlyX => rintro rfl hy; exact s.subtract_readV_dest_of_subtrahend_vf hy
  case onlyY => rintro hx rfl; exact s.subtract_readV_dest_of_minuend_vf hx
  case both => rintro rfl rfl; exact congrArg BitVec.toNat (s.subtract_readV_dest_of_same vf vf)
  case frame => exact fun _ => s.subtract_readV_other

/-! ### Loads and addition without a flag (R131 to R133) -/

/-- `6XKK` on the whole state (R131). -/
theorem exec_ldImm (x : RegIdx) (kk : Byte) (s : State) : exec (.ldImm x kk) s = .next ((s.writeV x kk).advance 2) := rfl

/-- `7XKK` on the whole state (R132). -/
theorem exec_addImm (x : RegIdx) (kk : Byte) (s : State) :
    exec (.addImm x kk) s = .next ((s.writeV x (s.readV x + kk)).advance 2) := rfl

/-- `8XY0` on the whole state (R133). -/
theorem exec_ldReg (x y : RegIdx) (s : State) : exec (.ldReg x y) s = .next ((s.writeV x (s.readV y)).advance 2) := rfl

/-- Settles O23: each of the three is one register write and pc + 2; the 8-bit sum is the sum as a number, wrapped. -/
theorem loadsWriteOneRegister : Obligations.LoadsWriteOneRegister := by
  intro s x y kk
  have hadd : exec (.addImm x kk) s =
      .next { s with v := s.v.set x (BitVec.ofNat 8 (s.v[x].toNat + kk.toNat)), pc := s.pc + 2 } := by
    rw [← BitVec.add_def]
    exact exec_addImm x kk s
  exact ⟨exec_ldImm x kk s, hadd, exec_ldReg x y s⟩

/-! ### The masked random byte (R137) -/

/-- `CXKK` on the whole state (R137). -/
theorem exec_rnd (x : RegIdx) (kk : Byte) (s : State) :
    exec (.rnd x kk) s = .next ((s.useRnd.writeV x (s.rndByte &&& kk)).advance 2) := rfl

/-- The random byte is the one the host gives with the step, when it gives one (R106). -/
theorem State.rndByte_of_some {s : State} {b : Byte} (h : s.rndIn = some b) : s.rndByte = b := by
  rw [State.rndByte, h, Option.getD_some]

/-- A masked byte has no bit outside its mask. -/
theorem and_mask_and_not_mask (b kk : Byte) : (b &&& kk) &&& ~~~kk = 0 := by
  rw [BitVec.and_assoc, BitVec.and_not_self]
  exact BitVec.and_zero

/-- Settles O27: the byte drawn is the step's own `rnd`, and the draw writes nothing but the model's record of it. -/
theorem randomByteIsMasked : Obligations.RandomByteIsMasked := by
  intro s x kk
  obtain ⟨r, d, hdraw⟩ := useRnd_eq s
  refine ⟨s.rndByte, r, d, ?_, fun _ => State.rndByte_of_some, and_mask_and_not_mask _ kk⟩
  rw [exec_rnd, hdraw]
  rfl

end Sys2Proof.Machine
end

section
/-! The address register and memory instructions: each arm of `exec` as one equation on either side of the range check, and the
bytes and registers that the multi-byte transfers leave (spec/43_index_memory.md R150 to R156). -/

namespace Sys2Proof.Machine

/-! ### The address register (R150 to R152) -/

/-- `ANNN` on the whole state (R150). -/
theorem exec_ldI (addr : Addr) (s : State) : exec (.ldI addr) s = .next ((s.writeI (addr.setWidth 16)).advance 2) := rfl

/-- `FX1E` on the whole state (R151). -/
theorem exec_addI (x : RegIdx) (s : State) :
    exec (.addI x) s = .next ((s.writeI (s.i + (s.readV x).setWidth 16)).advance 2) := rfl

/-- `FX29` on the whole state (R152). -/
theorem exec_ldF (x : RegIdx) (s : State) :
    exec (.ldF x) s = .next ((s.writeI ((s.readV x).setWidth 16 * 5)).advance 2) := rfl

/-- A byte extended to a word is the same number. -/
theorem byte_setWidth_toNat (b : Byte) : (b.setWidth 16 : Word).toNat = b.toNat :=
  BitVec.toNat_setWidth_of_le (by decide)

/-- Five times a byte fits in 16 bits, so the address of `FX29` is the exact product (R152). -/
theorem fontAddress_toNat (b : Byte) : (b.setWidth 16 * 5 : Word).toNat = b.toNat * 5 := by
  have hb := b.isLt
  calc
    _ = b.toNat * 5 % 65536 := by rw [BitVec.toNat_mul, byte_setWidth_toNat]; rfl
    _ = b.toNat * 5 := Nat.mod_eq_of_lt (by omega)

/-- Settles O34: each of the two writes I and pc alone, and neither number is cut by the 16 bits of I. -/
theorem addressRegisterLoads : Obligations.AddressRegisterLoads := by
  intro s addr x
  have haddr : (addr.setWidth 16 : Word).toNat = addr.toNat := BitVec.toNat_setWidth_of_le (by decide)
  exact ⟨⟨_, exec_ldI addr s, haddr⟩, _, exec_ldF x s, fontAddress_toNat s.v[x]⟩

/-- Settles O35: the sum is the 16-bit addition, and the registers, VF among them, are not written. -/
theorem addToAddressRegisterWraps : Obligations.AddToAddressRegisterWraps := by
  intro s x
  refine ⟨_, exec_addI x s, ?_⟩
  calc
    _ = (s.i.toNat + ((s.readV x).setWidth 16 : Word).toNat) % 65536 := BitVec.toNat_add _ _
    _ = (s.i.toNat + (s.readV x).toNat) % 65536 := by rw [byte_setWidth_toNat]

/-! ### The range check, and I after a transfer (R154 to R156, D7) -/

/-- A data access through I fits when its last byte, at offset `n`, lies inside memory (R156). -/
theorem dataFits_from_i_iff (s : State) (n : Nat) : dataFits (s.dataAddr 0) (n + 1) = true ↔ s.i.toNat + n ≤ 4095 := by
  rw [dataFits_iff, dataAddr_zero, memSize]
  omega

/-- A transfer of V0 to VX inside memory moves I past its last byte, without wrapping (R154, R155). -/
theorem iAfter_toNat {s : State} {x : RegIdx} (h : s.i.toNat + x.val ≤ 4095) :
    (s.iAfter x).toNat = s.i.toNat + x.val + 1 := by
  rw [State.iAfter, BitVec.toNat_add, BitVec.toNat_ofNat]
  omega

/-- The word of an instruction of the 0xF group as a number, its fixed byte first (R76). -/
theorem packByte_F_eq_ofNat (x : RegIdx) (kk : Byte) :
    packByte 0xF x kk = BitVec.ofNat 16 (0xF000 + kk.toNat + 256 * x.val) := by
  rw [packByte_eq_ofNat, Nat.add_right_comm]
  rfl

/-! ### Storing the decimal digits (R153) -/

/-- `FX33` with its three bytes inside memory (R153). -/
theorem exec_ldB_of_fits {s : State} (x : RegIdx) (h : s.i.toNat + 2 ≤ 4095) :
    exec (.ldB x) s = .next ((s.writeMem (s.mem.writeBytes s.i.toNat (decimalDigits (s.readV x)))).advance 2) :=
  if_pos ((dataFits_from_i_iff s 2).2 h)

/-- `FX33` with a byte outside memory (R153, D7). -/
theorem exec_ldB_of_outside {s : State} (x : RegIdx) (h : 4095 < s.i.toNat + 2) :
    exec (.ldB x) s = .next (s.raise .memoryOutOfRange (some (encode (.ldB x)))) :=
  if_neg (mt (dataFits_from_i_iff s 2).1 h.not_ge)

theorem encode_ldB_eq_ofNat (x : RegIdx) : encode (.ldB x) = BitVec.ofNat 16 (0xF033 + 256 * x.val) :=
  packByte_F_eq_ofNat x 0x33

/-- A byte written from `a` onward is read back at its offset (R53). -/
theorem Memory.read_writeBytes_offset {m : Memory} (hm : m.wf) {a : Nat} {bs : List Byte} (h : a + bs.length ≤ memSize)
    {j : Nat} (hj : j < bs.length) : (m.writeBytes a bs).read (a + j) = bs[j] := by
  rw [Memory.read_writeBytes hm h, if_pos (Nat.le_add_right a j), Nat.add_sub_cancel_left, List.getD_eq_getElem _ _ hj]

/-- The three digits stay inside memory (R153). -/
theorem decimalDigits_fits {a : Nat} (h : a + 2 ≤ 4095) (b : Byte) : a + (decimalDigits b).length ≤ memSize :=
  Nat.succ_le_succ h

/-- What the three addresses read as after the digits of `b` were written from `a` onward (R153). -/
theorem Memory.read_writeBytes_decimalDigits {m : Memory} (hm : m.wf) {a : Nat} (h : a + 2 ≤ 4095) (b : Byte) :
    ((m.writeBytes a (decimalDigits b)).read a).toNat = b.toNat / 100 ∧
    ((m.writeBytes a (decimalDigits b)).read (a + 1)).toNat = b.toNat / 10 % 10 ∧
    ((m.writeBytes a (decimalDigits b)).read (a + 2)).toNat = b.toNat % 10 := by
  have hb := b.isLt
  have hdigit {j n : Nat} (hj : j < 3) (hn : n < 256) (hget : (decimalDigits b)[j] = BitVec.ofNat 8 n) :
      ((m.writeBytes a (decimalDigits b)).read (a + j)).toNat = n := by
    rw [Memory.read_writeBytes_offset hm (decimalDigits_fits h b) hj, hget]
    exact Nat.mod_eq_of_lt hn
  exact ⟨hdigit (j := 0) (by decide) (by omega) rfl, hdigit (by decide) (by omega) rfl, hdigit (by decide) (by omega) rfl⟩

/-- Settles O36: inside memory the three digits are written and nothing else; outside it is the fatal stop with its own word. -/
theorem storeDecimalDigits : Obligations.StoreDecimalDigits := by
  intro s x hm
  constructor
  · intro h
    obtain ⟨hundreds, tens, units⟩ := Memory.read_writeBytes_decimalDigits hm h s.v[x]
    exact ⟨_, exec_ldB_of_fits x h, hundreds, tens, units,
      fun _ ha => Memory.read_writeBytes_other hm (decimalDigits_fits h _) ha⟩
  · intro h
    rw [exec_ldB_of_outside x h, encode_ldB_eq_ofNat, State.raise]

/-! ### Storing and loading V0 to VX (R154, R155) -/

/-- `FX55` with its last byte inside memory (R154). -/
theorem exec_ldMemVx_of_fits {s : State} {x : RegIdx} (h : s.i.toNat + x.val ≤ 4095) :
    exec (.ldMemVx x) s =
      .next (((s.writeMem (s.mem.writeBytes s.i.toNat (s.regsUpTo x))).writeI (s.iAfter x)).advance 2) :=
  if_pos ((dataFits_from_i_iff s x.val).2 h)

/-- `FX55` with its last byte outside memory (R154, D7). -/
theorem exec_ldMemVx_of_outside {s : State} {x : RegIdx} (h : 4095 < s.i.toNat + x.val) :
    exec (.ldMemVx x) s = .next (s.raise .memoryOutOfRange (some (encode (.ldMemVx x)))) :=
  if_neg (mt (dataFits_from_i_iff s x.val).1 h.not_ge)

/-- `FX65` with its last byte inside memory (R155). -/
theorem exec_ldVxMem_of_fits {s : State} {x : RegIdx} (h : s.i.toNat + x.val ≤ 4095) :
    exec (.ldVxMem x) s = .next (((s.writeRegs (s.loadRegs (x.val + 1) s.v)).writeI (s.iAfter x)).advance 2) :=
  if_pos ((dataFits_from_i_iff s x.val).2 h)

/-- `FX65` with its last byte outside memory (R155, D7). -/
theorem exec_ldVxMem_of_outside {s : State} {x : RegIdx} (h : 4095 < s.i.toNat + x.val) :
    exec (.ldVxMem x) s = .next (s.raise .memoryOutOfRange (some (encode (.ldVxMem x)))) :=
  if_neg (mt (dataFits_from_i_iff s x.val).1 h.not_ge)

theorem encode_ldMemVx_eq_ofNat (x : RegIdx) : encode (.ldMemVx x) = BitVec.ofNat 16 (0xF055 + 256 * x.val) :=
  packByte_F_eq_ofNat x 0x55

theorem encode_ldVxMem_eq_ofNat (x : RegIdx) : encode (.ldVxMem x) = BitVec.ofNat 16 (0xF065 + 256 * x.val) :=
  packByte_F_eq_ofNat x 0x65

/-- The bytes that `FX55` stores stay inside memory (R154). -/
theorem regsUpTo_fits {s : State} {x : RegIdx} (h : s.i.toNat + x.val ≤ 4095) :
    s.i.toNat + (s.regsUpTo x).length ≤ memSize := by
  rw [regsUpTo_length]
  exact Nat.succ_le_succ h

/-- The byte at offset `j` of the stored registers is `V[j]` (R154). -/
theorem read_writeBytes_regsUpTo {s : State} {x : RegIdx} (hm : s.mem.wf) (h : s.i.toNat + x.val ≤ 4095) {j : RegIdx}
    (hj : j ≤ x) : (s.mem.writeBytes s.i.toNat (s.regsUpTo x)).read (s.i.toNat + j.val) = s.v[j] := by
  rw [Memory.read_writeBytes hm (regsUpTo_fits h), if_pos (Nat.le_add_right _ _), Nat.add_sub_cancel_left, regsUpTo_getD]
  exact dif_pos hj

/-- Outside the stored registers memory reads as before (R154). -/
theorem read_writeBytes_regsUpTo_other {s : State} {x : RegIdx} (hm : s.mem.wf) (h : s.i.toNat + x.val ≤ 4095) {a : Nat}
    (ha : a < s.i.toNat ∨ s.i.toNat + x.val < a) :
    (s.mem.writeBytes s.i.toNat (s.regsUpTo x)).read a = s.mem.read a := by
  apply Memory.read_writeBytes_other hm (regsUpTo_fits h)
  rwa [regsUpTo_length]

/-- The registers after a load of V0 to VX: the byte at its offset up to VX, the old value above it (R155). -/
theorem loadRegs_upTo (s : State) (x j : RegIdx) :
    (s.loadRegs (x.val + 1) s.v)[j] = if j ≤ x then s.mem.read (s.i.toNat + j.val) else s.v[j] :=
  calc
    _ = if j.val < x.val + 1 then s.mem.read (s.i.toNat + j.val) else s.v[j] := loadRegs_getElem s _ s.v j.val j.isLt
    _ = _ := if_congr Nat.lt_succ_iff rfl rfl

/-- Settles O37: inside memory V0 to VX are written and I goes past them; outside it is the fatal stop with its own word. -/
theorem storeRegisters : Obligations.StoreRegisters := by
  intro s x hm
  constructor
  · intro h
    exact ⟨_, _, exec_ldMemVx_of_fits h, iAfter_toNat h, fun _ hj => read_writeBytes_regsUpTo hm h hj,
      fun _ ha => read_writeBytes_regsUpTo_other hm h ha⟩
  · intro h
    rw [exec_ldMemVx_of_outside h, encode_ldMemVx_eq_ofNat, State.raise]

/-- Settles O38: inside memory V0 to VX are loaded and I goes past them; outside it is the fatal stop with its own word. -/
theorem loadRegisters : Obligations.LoadRegisters := by
  intro s x
  constructor
  · intro h
    exact ⟨_, _, exec_ldVxMem_of_fits h, iAfter_toNat h, loadRegs_upTo s x⟩
  · intro h
    rw [exec_ldVxMem_of_outside h, encode_ldVxMem_eq_ofNat, State.raise]

end Sys2Proof.Machine
end

section
/-! The display instructions: the arm of `exec` as one equation (spec/44_display.md R170). -/

namespace Sys2Proof.Machine

/-- `00E0` on the whole state (R170). -/
theorem exec_cls (s : State) : exec .cls s = .next ((s.writeFb Framebuffer.clear).advance 2) := rfl

/-- Settles O40: the instruction writes the framebuffer and pc alone, and every cell of the framebuffer it writes is 0. -/
theorem clearScreenZeroesEveryCell : Obligations.ClearScreenZeroesEveryCell :=
  fun s => ⟨Framebuffer.clear, exec_cls s, fun k _ => Framebuffer.cell_clear k⟩

end Sys2Proof.Machine
end

section
/-! The timer and keypad instructions: each arm of `exec` as one equation on either side of the key code's bound, the key press
that completes a wait, and the tick at the end of a step (spec/45_timers_keypad.md R190 to R199). -/

namespace Sys2Proof.Machine

/-! ### The tick, by timer mode (R98, R190, R191) -/

theorem State.tickIfPerInstruction_of_perInstruction {s : State} (h : s.config.timerMode = .perInstruction) :
    s.tickIfPerInstruction = s.timerTick := by
  rw [tickIfPerInstruction_eq, if_pos h]

theorem State.tickIfPerInstruction_of_externalTick {s : State} (h : s.config.timerMode = .externalTick) :
    s.tickIfPerInstruction = s := by
  rw [tickIfPerInstruction_eq, h, if_neg (by decide)]

/-- The tick of a completed instruction writes the two timers alone: it counts them down in `per_instruction` mode, and leaves
them in `external_tick` mode (R98, R190, R191). -/
theorem State.tickIfPerInstruction_timers (s : State) : ∃ d e, s.tickIfPerInstruction = { s with dt := d, st := e } ∧
    (s.config.timerMode = .perInstruction → d.toNat = s.dt.toNat - 1 ∧ e.toNat = s.st.toNat - 1) ∧
    (s.config.timerMode = .externalTick → d = s.dt ∧ e = s.st) := by
  cases h : s.config.timerMode with
  | perInstruction =>
    exact ⟨_, _, tickIfPerInstruction_of_perInstruction h, fun _ => ⟨countDown_toNat s.dt, countDown_toNat s.st⟩, nofun⟩
  | externalTick => exact ⟨_, _, tickIfPerInstruction_of_externalTick h, nofun, fun _ => ⟨rfl, rfl⟩⟩

/-- A completed step ends with one tick in `per_instruction` mode (R98). -/
theorem State.finishStep_of_perInstruction {s : State} (hr : s.runState = .running)
    (hm : s.config.timerMode = .perInstruction) : s.finishStep = s.timerTick := by
  rw [finishStep_of_running hr, tickIfPerInstruction_of_perInstruction hm]

theorem State.finishStep_dt_toNat {s : State} (hr : s.runState = .running) (hm : s.config.timerMode = .perInstruction) :
    s.finishStep.dt.toNat = s.dt.toNat - 1 := by
  rw [finishStep_of_perInstruction hr hm, timerTick_dt, countDown_toNat]

theorem State.finishStep_st_toNat {s : State} (hr : s.runState = .running) (hm : s.config.timerMode = .perInstruction) :
    s.finishStep.st.toNat = s.st.toNat - 1 := by
  rw [finishStep_of_perInstruction hr hm, timerTick_st, countDown_toNat]

/-! ### Key skips (R196, R197, D9) -/

/-- `EX9E` with a key code in V[x] (R196). -/
theorem exec_skp_of_lt {s : State} {x : RegIdx} (h : (s.readV x).toNat < numKeys) :
    exec (.skp x) s = .next (s.skipIf s.keypad[(s.readV x).toNat]) := by
  rw [exec, execSkp, keyCode_eq_some h]
  rfl

/-- `EX9E` with V[x] above 15 (R196, D9). -/
theorem exec_skp_of_outside {s : State} {x : RegIdx} (h : 15 < (s.readV x).toNat) :
    exec (.skp x) s = .next (s.raise .keyIndexOutOfRange (some (encode (.skp x)))) := by
  rw [exec, execSkp, keyCode_eq_none (Nat.not_lt.2 h)]

/-- `EXA1` with a key code in V[x] (R197). -/
theorem exec_sknp_of_lt {s : State} {x : RegIdx} (h : (s.readV x).toNat < numKeys) :
    exec (.sknp x) s = .next (s.skipIf !s.keypad[(s.readV x).toNat]) := by
  rw [exec, execSknp, keyCode_eq_some h]
  rfl

/-- `EXA1` with V[x] above 15 (R197, D9). -/
theorem exec_sknp_of_outside {s : State} {x : RegIdx} (h : 15 < (s.readV x).toNat) :
    exec (.sknp x) s = .next (s.raise .keyIndexOutOfRange (some (encode (.sknp x)))) := by
  rw [exec, execSknp, keyCode_eq_none (Nat.not_lt.2 h)]

/-- The word of an instruction of the 0xE group as a number, its fixed byte first (R76). -/
theorem packByte_E_eq_ofNat (x : RegIdx) (kk : Byte) :
    packByte 0xE x kk = BitVec.ofNat 16 (0xE000 + kk.toNat + 256 * x.val) := by
  rw [packByte_eq_ofNat, Nat.add_right_comm]
  rfl

theorem encode_skp_eq_ofNat (x : RegIdx) : encode (.skp x) = BitVec.ofNat 16 (0xE09E + 256 * x.val) :=
  packByte_E_eq_ofNat x 0x9E

theorem encode_sknp_eq_ofNat (x : RegIdx) : encode (.sknp x) = BitVec.ofNat 16 (0xE0A1 + 256 * x.val) :=
  packByte_E_eq_ofNat x 0xA1

/-- A skip on a condition that does not hold exchanges the two distances (R97). -/
theorem State.skipIf_not (s : State) (c : Bool) : s.skipIf (!c) = { s with pc := s.pc + if c then 2 else 4 } := by
  cases c <;> rfl

/-- Settles O44: up to 15 the two are a skip on the key's flag and on its negation; above 15 both are the fatal stop. -/
theorem keySkipsReadTheHeldFlag : Obligations.KeySkipsReadTheHeldFlag := by
  intro s x
  constructor
  · intro h
    constructor
    · rw [exec_skp_of_lt h, State.skipIf_eq]
      rfl
    · rw [exec_sknp_of_lt h, State.skipIf_not]
      rfl
  · intro h
    rw [exec_skp_of_outside h, exec_sknp_of_outside h, encode_skp_eq_ofNat, encode_sknp_eq_ofNat]
    exact ⟨rfl, rfl⟩

/-! ### The key wait (R198, R199) -/

/-- `FX0A` on the whole state (R198). -/
theorem exec_ldVxK (x : RegIdx) (s : State) : exec (.ldVxK x) s = .next (s.setRun (.waitKey x)) := rfl

/-- A key press in a wait completes the wait (R199). -/
theorem perform_keyPress_of_waitKey {s : State} {x : RegIdx} (h : s.runState = .waitKey x) (code : Fin 16) :
    perform (.keyPress code.val) s = .next (s.keyPress x code) := by
  rw [perform, pressKey, dif_pos code.isLt, h]

/-- Settles O45: the key press writes V[x], pc and the run state, and then only the tick of its mode acts on the timers. -/
theorem keyWaitCompletesByKeyPress : Obligations.KeyWaitCompletesByKeyPress := by
  refine ⟨fun s x => exec_ldVxK x s, fun s x code hwait => ?_⟩
  have hcode : (BitVec.ofNat 8 code.val).toNat = code.val := Nat.mod_eq_of_lt (by omega)
  obtain ⟨d, e, htick, hper, hext⟩ :=
    (((s.writeV x (BitVec.ofNat 8 code.val)).advance 2).setRun .running).tickIfPerInstruction_timers
  exact ⟨_, d, e, (perform_keyPress_of_waitKey hwait code).trans (congrArg _ htick), hcode, hper, hext⟩

/-! ### The timer instructions (R192 to R194) -/

/-- `FX07` on the whole state (R192). -/
theorem exec_ldVxDt (x : RegIdx) (s : State) : exec (.ldVxDt x) s = .next ((s.writeV x s.dt).advance 2) := rfl

/-- `FX15` on the whole state (R193). -/
theorem exec_ldDtVx (x : RegIdx) (s : State) : exec (.ldDtVx x) s = .next ((s.writeDt (s.readV x)).advance 2) := rfl

/-- `FX18` on the whole state (R194). -/
theorem exec_ldStVx (x : RegIdx) (s : State) : exec (.ldStVx x) s = .next ((s.writeSt (s.readV x)).advance 2) := rfl

/-- Settles O46: the instruction writes V[x] and pc alone, so the tick leaves V[x] and counts down the DT that was read. -/
theorem readDelayTimerBeforeTheTick : Obligations.ReadDelayTimerBeforeTheTick := by
  intro s x
  refine ⟨exec_ldVxDt x s, fun t hexec hrun hmode => ?_⟩
  obtain rfl : (s.writeV x s.dt).advance 2 = t := Host.Outcome.next.inj hexec
  constructor
  · rw [State.finishStep_v]
    exact s.readV_writeV_same x s.dt
  · exact State.finishStep_dt_toNat hrun hmode

/-- Settles O47: each of the two writes its timer and pc alone, so the tick counts down the timer just written. -/
theorem setTimersThenTick : Obligations.SetTimersThenTick := by
  intro s x
  refine ⟨exec_ldDtVx x s, exec_ldStVx x s, fun t hrun hmode => ⟨fun hexec => ?_, fun hexec => ?_⟩⟩
  · obtain rfl : (s.writeDt (s.readV x)).advance 2 = t := Host.Outcome.next.inj hexec
    exact State.finishStep_dt_toNat hrun hmode
  · obtain rfl : (s.writeSt (s.readV x)).advance 2 = t := Host.Outcome.next.inj hexec
    exact State.finishStep_st_toNat hrun hmode

end Sys2Proof.Machine
end

section
/-! The encoder reads back what the decoder answers, sub-decoder by sub-decoder (spec/30_encoding.md R71, R72, R79). -/

namespace Sys2Proof

/-! ### A word from the fields that the decoder compares -/

theorem packAddr_of_op {w : Word} {op : Nibble} (hop : opField w = op) : packAddr op (addrField w) = w :=
  hop ▸ packAddr_fields w

theorem packByte_of_op {w : Word} {op : Nibble} (hop : opField w = op) : packByte op (xField w) (kkField w) = w :=
  hop ▸ packByte_fields w

theorem packRegs_of_op {w : Word} {op : Nibble} (hop : opField w = op) :
    packRegs op (xField w) (yField w) (nField w) = w :=
  hop ▸ packRegs_fields w

/-! ### What a decoder's answer encodes to -/

/-- The answer `d` is no instruction, or an instruction whose word is `w`. -/
def EncodesTo (w : Word) (d : Decoded) : Prop := ∀ i, d = .instr i → encode i = w

theorem encodesTo_instr {w : Word} {i : Instr} (h : encode i = w) : EncodesTo w (.instr i) := by
  rintro _ ⟨⟩
  exact h

theorem encodesTo_unknown (w : Word) : EncodesTo w (.unknown w) := nofun

/-- Each branch of a decoder is looked at under the comparison that leads to it. -/
theorem encodesTo_ite {w : Word} {p : Prop} [Decidable p] {d e : Decoded} (hd : p → EncodesTo w d)
    (he : ¬ p → EncodesTo w e) : EncodesTo w (if p then d else e) := by
  split
  · next h => exact hd h
  · next h => exact he h

/-- A row whose function code is the low byte. -/
theorem encodesTo_byteRow {w : Word} {op : Nibble} {kk : Byte} {i : Instr} (hop : opField w = op)
    (hi : encode i = packByte op (xField w) kk) (hkk : kkField w = kk) : EncodesTo w (.instr i) :=
  encodesTo_instr (hi.trans (hkk ▸ packByte_of_op hop))

/-- A row whose function code is the low nibble. -/
theorem encodesTo_nibbleRow {w : Word} {op n : Nibble} {i : Instr} (hop : opField w = op)
    (hi : encode i = packRegs op (xField w) (yField w) n) (hn : nField w = n) : EncodesTo w (.instr i) :=
  encodesTo_instr (hi.trans (hn ▸ packRegs_of_op hop))

theorem encodesTo_decode0 (w : Word) : EncodesTo w (decode0 w) := by
  unfold decode0
  refine encodesTo_ite (fun hw => encodesTo_instr hw.symm) fun _ => ?_
  exact encodesTo_ite (fun hw => encodesTo_instr hw.symm) fun _ => encodesTo_unknown w

theorem encodesTo_decode8 {w : Word} (hop : opField w = 0x8) : EncodesTo w (decode8 w) := by
  have row {n : Nibble} {i : Instr} := encodesTo_nibbleRow (n := n) (i := i) hop
  unfold decode8
  refine encodesTo_ite (row rfl) fun _ => encodesTo_ite (row rfl) fun _ => ?_
  exact encodesTo_ite (row rfl) fun _ => encodesTo_ite (row rfl) fun _ => encodesTo_unknown w

theorem encodesTo_decodeE {w : Word} (hop : opField w = 0xE) : EncodesTo w (decodeE w) := by
  have row {kk : Byte} {i : Instr} := encodesTo_byteRow (kk := kk) (i := i) hop
  unfold decodeE
  exact encodesTo_ite (row rfl) fun _ => encodesTo_ite (row rfl) fun _ => encodesTo_unknown w

theorem encodesTo_decodeF {w : Word} (hop : opField w = 0xF) : EncodesTo w (decodeF w) := by
  have row {kk : Byte} {i : Instr} := encodesTo_byteRow (kk := kk) (i := i) hop
  unfold decodeF
  refine encodesTo_ite (row rfl) fun _ => encodesTo_ite (row rfl) fun _ => encodesTo_ite (row rfl) fun _ => ?_
  refine encodesTo_ite (row rfl) fun _ => encodesTo_ite (row rfl) fun _ => encodesTo_ite (row rfl) fun _ => ?_
  refine encodesTo_ite (row rfl) fun _ => encodesTo_ite (row rfl) fun _ => encodesTo_ite (row rfl) fun _ => ?_
  exact encodesTo_unknown w

/-- By the value of `op`; the last branch is 0xF because the other fifteen are shut out (R79). -/
theorem encodesTo_decode (w : Word) : EncodesTo w (decode w) := by
  unfold decode
  refine encodesTo_ite (fun _ => encodesTo_decode0 w) fun h0 => ?_
  refine encodesTo_ite (fun hop => encodesTo_instr (packAddr_of_op hop)) fun h1 => ?_
  refine encodesTo_ite (fun hop => encodesTo_instr (packAddr_of_op hop)) fun h2 => ?_
  refine encodesTo_ite (fun hop => encodesTo_instr (packByte_of_op hop)) fun h3 => ?_
  refine encodesTo_ite (fun hop => encodesTo_instr (packByte_of_op hop)) fun h4 => ?_
  refine encodesTo_ite (fun hop => encodesTo_ite (encodesTo_nibbleRow hop rfl) fun _ => encodesTo_unknown w) fun h5 => ?_
  refine encodesTo_ite (fun hop => encodesTo_instr (packByte_of_op hop)) fun h6 => ?_
  refine encodesTo_ite (fun hop => encodesTo_instr (packByte_of_op hop)) fun h7 => ?_
  refine encodesTo_ite encodesTo_decode8 fun h8 => ?_
  refine encodesTo_ite (fun hop => encodesTo_ite (encodesTo_nibbleRow hop rfl) fun _ => encodesTo_unknown w) fun h9 => ?_
  refine encodesTo_ite (fun hop => encodesTo_instr (packAddr_of_op hop)) fun hA => ?_
  refine encodesTo_ite (fun hop => encodesTo_instr (packAddr_of_op hop)) fun hB => ?_
  refine encodesTo_ite (fun hop => encodesTo_instr (packByte_of_op hop)) fun hC => ?_
  refine encodesTo_ite (fun hop => encodesTo_instr (packRegs_of_op hop)) fun hD => ?_
  refine encodesTo_ite encodesTo_decodeE fun hE => ?_
  have hop : opField w = 0xF := by bv_omega
  exact encodesTo_decodeF hop

/-- The instruction of a word encodes to that word: decoding drops no bit (R75). -/
theorem encode_of_decode {w : Word} {i : Instr} (h : decode w = .instr i) : encode i = w := encodesTo_decode w i h

end Sys2Proof
end

section
/-! The step of the core by run state, and the fatal stop: what it leaves and what it shuts out (spec/60_exceptions.md R220, R222,
R226). -/

namespace Sys2Proof.Machine

/-! ### The step by run state (R91, R93) -/

/-- With no host action before it a step is the core's own (log 2). -/
theorem step_of_no_schedule {s : State} (h : s.schedule = []) : step s = coreStep s := by
  rw [step, nextAction, h]

theorem coreStep_of_running {s : State} (h : s.runState = .running) : coreStep s = onNext State.finishStep (cycle s) := by
  rw [coreStep, h]

theorem coreStep_of_halted {s : State} {c : Cause} {p : Word} {w : Option Word} (h : s.runState = .halted c p w) :
    coreStep s = .fault (.halted c p w) := by
  rw [coreStep, h]

/-! ### An unknown word (R222) -/

/-- Decoding an unknown word raises its fatal error (R95, R227). -/
theorem cycle_of_unknown {s : State} {w : Word} (hfetch : s.fetchWord = some w) (hdecode : decode w = .unknown w) :
    cycle s = .next (s.raise .unknownInstruction (some w)) := by
  rw [cycle, hfetch]
  simp only [hdecode, Decoded.instr?]

/-- Settles O10: decoding comes before any effect, and the fatal stop it raises is not ticked. -/
theorem unknownWordIsFatal : Obligations.UnknownWordIsFatal := by
  refine ⟨by decide, fun s w hsched hrun hfetch hdecode => ?_⟩
  rw [step_of_no_schedule hsched, coreStep_of_running hrun, cycle_of_unknown hfetch hdecode, onNext_next]
  rfl

/-! ### A step that halts (R220) -/

/-- An instruction that halts a running core has raised a fatal error: neither a completed nor a suspended one is HALTED. -/
theorem exec_halted {i : Instr} {s t : State} {c : Cause} {p : Word} {w : Option Word} (hrun : s.runState = .running)
    (hexec : exec i s = .next t) (hhalt : t.runState = .halted c p w) : t = s.raise c (some (encode i)) := by
  rcases exec_cases i s with ⟨d, -, hraise⟩ | ⟨x, -, hwait⟩ | ⟨u, hdone, hcompletes⟩
  · obtain rfl : s.raise d (some (encode i)) = t := Host.Outcome.next.inj (hraise.symm.trans hexec)
    obtain ⟨rfl, -, -⟩ := RunState.halted.inj hhalt
    rfl
  · obtain rfl : s.setRun (.waitKey x) = t := Host.Outcome.next.inj (hwait.symm.trans hexec)
    cases hhalt
  · obtain rfl : u = t := Host.Outcome.next.inj (hdone.symm.trans hexec)
    rw [hcompletes.runState, hrun] at hhalt
    cases hhalt

/-- The tick neither halts a core nor touches a halted one (R98). -/
theorem finishStep_of_halted {s : State} {c : Cause} {p : Word} {w : Option Word}
    (h : s.finishStep.runState = .halted c p w) : s.runState = .halted c p w ∧ s.finishStep = s := by
  rw [State.finishStep_runState] at h
  exact ⟨h, State.finishStep_of_not_running (by simp [h])⟩

/-- A step of the core that halts it is a fatal error with the word that was fetched, raised in the state before (R220). -/
theorem coreStep_halted {s t : State} {c : Cause} {p : Word} {w : Option Word} (hrun : s.runState = .running)
    (hstep : coreStep s = .next t) (hhalt : t.runState = .halted c p w) : t = s.raise c s.fetchWord := by
  rcases coreStep_cases hstep with
    ⟨x, hwait, -⟩ | ⟨-, ⟨hfetch, rfl⟩ | ⟨v, hfetch, -, rfl⟩ | ⟨v, i, u, hfetch, hdecode, hexec, rfl⟩⟩
  · rw [hrun] at hwait
    cases hwait
  · obtain ⟨rfl, -, -⟩ := RunState.halted.inj hhalt
    rw [hfetch]
  · obtain ⟨rfl, -, -⟩ := RunState.halted.inj hhalt
    rw [hfetch]
  · obtain ⟨hhalt, hnoTick⟩ := finishStep_of_halted hhalt
    rw [hnoTick, hfetch, ← encode_of_decode hdecode]
    exact exec_halted hrun hexec hhalt

/-- Settles O11: the halting step raises a fatal error in the state before, whose empty schedule makes the next step the core's. -/
theorem haltingStepChangesNothingElse : Obligations.HaltingStepChangesNothingElse := by
  intro s t c p w hsched hrun hstep hhalt
  rw [step_of_no_schedule hsched] at hstep
  obtain rfl : t = s.raise c s.fetchWord := coreStep_halted hrun hstep hhalt
  have hstop : step (s.raise c s.fetchWord) = coreStep (s.raise c s.fetchWord) := step_of_no_schedule hsched
  exact ⟨rfl, hstop.trans (coreStep_of_halted rfl)⟩

/-! ### HALTED is absorbing (R226) -/

/-- Settles O14: each of the five other host actions, where it answers a next state, needs a run state that is not HALTED. -/
theorem haltedIsAbsorbing : Obligations.HaltedIsAbsorbing := by
  intro s c p w hhalt
  have hnotWaiting {x : RegIdx} (hwait : s.runState = .waitKey x) : False := nomatch hhalt.symm.trans hwait
  refine ⟨fun hsched => (step_of_no_schedule hsched).trans (coreStep_of_halted hhalt), rfl, fun a t ha => ?_⟩
  rcases perform_cases ha with
    ⟨program, rfl, -, -⟩ | ⟨b, u, -, hstep, -⟩ | ⟨-, -, -, -, -, hnot⟩ | ⟨-, x, -, -, hwait, -⟩ | ⟨x, -, hwait, -⟩ |
    ⟨rfl, -⟩ | ⟨-, -, -, hnot⟩
  · exact .inr ⟨program, rfl⟩
  · have hfault : coreStep (s.setRndIn (some b)) = .fault (.halted c p w) := coreStep_of_halted hhalt
    exact nomatch hfault.symm.trans hstep
  · exact absurd hhalt (hnot c p w)
  · exact (hnotWaiting hwait).elim
  · exact (hnotWaiting hwait).elim
  · exact .inl rfl
  · exact absurd hhalt (hnot c p w)

end Sys2Proof.Machine
end

section
/-! Decoding and encoding as inverses, and the opcode table as the decoder's domain (spec/30_encoding.md R70, R75, R77, R79). -/

namespace Sys2Proof

/-! ### The decoder by the value of `op` (R79) -/

section
variable {w : Word}

theorem decode_of_op0 (h : opField w = 0x0) : decode w = decode0 w := by simp [decode, h]
theorem decode_of_op1 (h : opField w = 0x1) : decode w = .instr (.jp (addrField w)) := by simp [decode, h]
theorem decode_of_op2 (h : opField w = 0x2) : decode w = .instr (.call (addrField w)) := by simp [decode, h]
theorem decode_of_op3 (h : opField w = 0x3) : decode w = .instr (.seImm (xField w) (kkField w)) := by simp [decode, h]
theorem decode_of_op4 (h : opField w = 0x4) : decode w = .instr (.sneImm (xField w) (kkField w)) := by simp [decode, h]
theorem decode_of_op5 (h : opField w = 0x5) :
    decode w = if nField w = 0 then .instr (.seReg (xField w) (yField w)) else .unknown w := by simp [decode, h]
theorem decode_of_op6 (h : opField w = 0x6) : decode w = .instr (.ldImm (xField w) (kkField w)) := by simp [decode, h]
theorem decode_of_op7 (h : opField w = 0x7) : decode w = .instr (.addImm (xField w) (kkField w)) := by simp [decode, h]
theorem decode_of_op8 (h : opField w = 0x8) : decode w = decode8 w := by simp [decode, h]
theorem decode_of_op9 (h : opField w = 0x9) :
    decode w = if nField w = 0 then .instr (.sneReg (xField w) (yField w)) else .unknown w := by simp [decode, h]
theorem decode_of_opA (h : opField w = 0xA) : decode w = .instr (.ldI (addrField w)) := by simp [decode, h]
theorem decode_of_opB (h : opField w = 0xB) : decode w = .instr (.jpV0 (addrField w)) := by simp [decode, h]
theorem decode_of_opC (h : opField w = 0xC) : decode w = .instr (.rnd (xField w) (kkField w)) := by simp [decode, h]
theorem decode_of_opD (h : opField w = 0xD) : decode w = .instr (.drw (xField w) (yField w) (nField w)) := by
  simp [decode, h]
theorem decode_of_opE (h : opField w = 0xE) : decode w = decodeE w := by simp [decode, h]
theorem decode_of_opF (h : opField w = 0xF) : decode w = decodeF w := by simp [decode, h]

end

/-! ### Every instruction is read back from its word and from its bytes -/

/-- Every instruction is read back from its word: `op` leads to its group, and there its fixed bits to its own row (R79). -/
theorem decode_encode (i : Instr) : decode (encode i) = .instr i := by
  cases i
  case cls => decide
  case ret => decide
  case jp addr => simp [encode, decode_of_op1]
  case call addr => simp [encode, decode_of_op2]
  case seImm x kk => simp [encode, decode_of_op3]
  case sneImm x kk => simp [encode, decode_of_op4]
  case seReg x y => simp [encode, decode_of_op5]
  case ldImm x kk => simp [encode, decode_of_op6]
  case addImm x kk => simp [encode, decode_of_op7]
  case sneReg x y => simp [encode, decode_of_op9]
  case ldI addr => simp [encode, decode_of_opA]
  case jpV0 addr => simp [encode, decode_of_opB]
  case rnd x kk => simp [encode, decode_of_opC]
  case drw x y n => simp [encode, decode_of_opD]
  case ldReg | addReg | sub | subn => simp [encode, decode_of_op8, decode8]
  case skp | sknp => simp [encode, decode_of_opE, decodeE]
  case ldVxDt | ldVxK | ldDtVx | ldStVx | addI | ldF | ldB | ldMemVx | ldVxMem =>
    simp [encode, decode_of_opF, decodeF]

theorem decodeBytes_encodeBytes (i : Instr) (rest : List Byte) :
    decodeBytes (encodeBytes i ++ rest) = (decode (encode i), rest) := by
  rw [encodeBytes, List.cons_append, List.cons_append, List.nil_append, decodeBytes_cons, wordOfBytes_hi_lo]

/-- Settles O2: the two bytes are the word again, and the word is the instruction again. -/
theorem decodeInvertsEncode : Obligations.DecodeInvertsEncode := fun i rest =>
  ⟨decode_encode i, (decodeBytes_encodeBytes i rest).trans (by rw [decode_encode])⟩

/-- Settles O3: branch by branch of the decoder, the fields of the answer pack to the word. -/
theorem encodeInvertsDecode : Obligations.EncodeInvertsDecode := fun _ _ => encode_of_decode

/-! ### The opcode table (R75, R76) -/

/-- A word that agrees with a row of format `A`, `XK` or `XYN` has the row's `op`. -/
theorem opField_of_mask {w : Word} {op : Nibble} (h : w &&& 0xF000 = packAddr op 0) : opField w = op := by
  rw [← packAddr_fields w, packAddr_mask] at h
  simpa using congrArg opField h

/-- A word that agrees with a row of format `XY` is packed from the row's `op` and function code. -/
theorem packRegs_of_mask {w : Word} {op n : Nibble} (h : w &&& 0xF00F = packRegs op 0 0 n) :
    packRegs op (xField w) (yField w) n = w := by
  rw [← packRegs_fields w, packRegs_mask_n] at h
  have hop := congrArg opField h
  have hn := congrArg nField h
  simp only [opField_packRegs, nField_packRegs] at hop hn
  rw [← hop, ← hn, packRegs_fields]

/-- A word that agrees with a row of format `X` is packed from the row's `op` and function code. -/
theorem packByte_of_mask {w : Word} {op : Nibble} {kk : Byte} (h : w &&& 0xF0FF = packByte op 0 kk) :
    packByte op (xField w) kk = w := by
  rw [← packByte_fields w, packByte_mask_kk] at h
  have hop := congrArg opField h
  have hkk := congrArg kkField h
  simp only [opField_packByte, kkField_packByte] at hop hkk
  rw [← hop, ← hkk, packByte_fields]

/-- A word that matches the row of an instruction is the word of an instruction of that row, whatever its operands. -/
theorem exists_encode_of_row {j : Instr} {w : Word} (h : w &&& j.row.mask = j.row.pattern) :
    ∃ i, i.row = j.row ∧ encode i = w := by
  cases j
  case cls => exact ⟨.cls, rfl, h.symm.trans BitVec.and_allOnes⟩
  case ret => exact ⟨.ret, rfl, h.symm.trans BitVec.and_allOnes⟩
  case jp => exact ⟨.jp (addrField w), rfl, packAddr_of_op (opField_of_mask h)⟩
  case call => exact ⟨.call (addrField w), rfl, packAddr_of_op (opField_of_mask h)⟩
  case seImm => exact ⟨.seImm (xField w) (kkField w), rfl, packByte_of_op (opField_of_mask h)⟩
  case sneImm => exact ⟨.sneImm (xField w) (kkField w), rfl, packByte_of_op (opField_of_mask h)⟩
  case seReg => exact ⟨.seReg (xField w) (yField w), rfl, packRegs_of_mask h⟩
  case ldImm => exact ⟨.ldImm (xField w) (kkField w), rfl, packByte_of_op (opField_of_mask h)⟩
  case addImm => exact ⟨.addImm (xField w) (kkField w), rfl, packByte_of_op (opField_of_mask h)⟩
  case ldReg => exact ⟨.ldReg (xField w) (yField w), rfl, packRegs_of_mask h⟩
  case addReg => exact ⟨.addReg (xField w) (yField w), rfl, packRegs_of_mask h⟩
  case sub => exact ⟨.sub (xField w) (yField w), rfl, packRegs_of_mask h⟩
  case subn => exact ⟨.subn (xField w) (yField w), rfl, packRegs_of_mask h⟩
  case sneReg => exact ⟨.sneReg (xField w) (yField w), rfl, packRegs_of_mask h⟩
  case ldI => exact ⟨.ldI (addrField w), rfl, packAddr_of_op (opField_of_mask h)⟩
  case jpV0 => exact ⟨.jpV0 (addrField w), rfl, packAddr_of_op (opField_of_mask h)⟩
  case rnd => exact ⟨.rnd (xField w) (kkField w), rfl, packByte_of_op (opField_of_mask h)⟩
  case drw => exact ⟨.drw (xField w) (yField w) (nField w), rfl, packRegs_of_op (opField_of_mask h)⟩
  case skp => exact ⟨.skp (xField w), rfl, packByte_of_mask h⟩
  case sknp => exact ⟨.sknp (xField w), rfl, packByte_of_mask h⟩
  case ldVxDt => exact ⟨.ldVxDt (xField w), rfl, packByte_of_mask h⟩
  case ldVxK => exact ⟨.ldVxK (xField w), rfl, packByte_of_mask h⟩
  case ldDtVx => exact ⟨.ldDtVx (xField w), rfl, packByte_of_mask h⟩
  case ldStVx => exact ⟨.ldStVx (xField w), rfl, packByte_of_mask h⟩
  case addI => exact ⟨.addI (xField w), rfl, packByte_of_mask h⟩
  case ldF => exact ⟨.ldF (xField w), rfl, packByte_of_mask h⟩
  case ldB => exact ⟨.ldB (xField w), rfl, packByte_of_mask h⟩
  case ldMemVx => exact ⟨.ldMemVx (xField w), rfl, packByte_of_mask h⟩
  case ldVxMem => exact ⟨.ldVxMem (xField w), rfl, packByte_of_mask h⟩

/-- The table holds rows of instructions only. -/
theorem exists_row_of_mem {r : Row} (h : r ∈ opcodeRows) : ∃ j : Instr, r = j.row := by
  simp only [opcodeRows, List.mem_append, List.mem_cons, List.not_mem_nil, or_false] at h
  rcases h with ((h | h | h | h | h | h | h | h | h | h) | (h | h | h | h | h | h | h | h | h | h)) |
    (h | h | h | h | h | h | h | h | h) <;> exact ⟨_, h⟩

/-- A word matches a row of the table exactly when it decodes to an instruction of that row (R75). -/
theorem matches_row_iff {w : Word} {r : Row} (hr : r ∈ opcodeRows) :
    w &&& r.mask = r.pattern ↔ ∃ i, decode w = .instr i ∧ r = i.row := by
  constructor
  · intro h
    obtain ⟨j, rfl⟩ := exists_row_of_mem hr
    obtain ⟨i, hrow, rfl⟩ := exists_encode_of_row h
    exact ⟨i, decode_encode i, hrow.symm⟩
  · rintro ⟨i, hi, rfl⟩
    obtain rfl := encode_of_decode hi
    exact eq_of_beq (Laws.RowMatch.all i).1

/-- Settles O4: an instruction's own row is in the table and matches; a row that matches is that of the instruction decoded. -/
theorem decodeFollowsOpcodeTable : Obligations.DecodeFollowsOpcodeTable := by
  intro w
  constructor
  · constructor
    · rintro ⟨i, hi⟩
      have hmem : i.row ∈ opcodeRows := (Laws.RowMatch.all i).2
      exact ⟨i.row, hmem, (matches_row_iff hmem).2 ⟨i, hi, rfl⟩⟩
    · rintro ⟨r, hr, hmatch⟩
      obtain ⟨i, hi, -⟩ := (matches_row_iff hr).1 hmatch
      exact ⟨i, hi⟩
  · intro i hi r hr
    rw [matches_row_iff hr, hi]
    constructor
    · rintro ⟨j, ⟨⟩, hrow⟩
      exact hrow
    · exact fun hrow => ⟨i, rfl, hrow⟩

/-! ### The unknown words (R77) -/

theorem opField_toNat (w : Word) : (opField w).toNat = w.toNat / 4096 := by
  have hw := w.isLt
  rw [opField, BitVec.extractLsb'_toNat, Nat.shiftRight_eq_div_pow]
  omega

theorem nField_toNat (w : Word) : (nField w).toNat = w.toNat % 16 := by
  rw [nField, BitVec.extractLsb'_toNat, Nat.shiftRight_zero]

theorem kkField_toNat (w : Word) : (kkField w).toNat = w.toNat % 256 := by
  rw [kkField, BitVec.extractLsb'_toNat, Nat.shiftRight_zero]

theorem ite_instr_eq_unknown {p : Prop} [Decidable p] {i : Instr} {d : Decoded} {w : Word} :
    (if p then .instr i else d) = Decoded.unknown w ↔ ¬ p ∧ d = .unknown w := by
  split <;> simp_all

theorem decode0_eq_unknown {w : Word} : decode0 w = .unknown w ↔ w ≠ 0x00E0 ∧ w ≠ 0x00EE := by
  simp only [decode0, ite_instr_eq_unknown, and_true]

theorem decode8_eq_unknown {w : Word} : decode8 w = .unknown w ↔ nField w ∉ [0, 4, 5, 7] := by
  simp [decode8, ite_instr_eq_unknown]

theorem decodeE_eq_unknown {w : Word} : decodeE w = .unknown w ↔ kkField w ∉ [0x9E, 0xA1] := by
  simp [decodeE, ite_instr_eq_unknown]

theorem decodeF_eq_unknown {w : Word} :
    decodeF w = .unknown w ↔ kkField w ∉ [0x07, 0x0A, 0x15, 0x18, 0x1E, 0x29, 0x33, 0x55, 0x65] := by
  simp [decodeF, ite_instr_eq_unknown]

theorem nibble_cases (b : Nibble) :
    b = 0x0 ∨ b = 0x1 ∨ b = 0x2 ∨ b = 0x3 ∨ b = 0x4 ∨ b = 0x5 ∨ b = 0x6 ∨ b = 0x7 ∨
    b = 0x8 ∨ b = 0x9 ∨ b = 0xA ∨ b = 0xB ∨ b = 0xC ∨ b = 0xD ∨ b = 0xE ∨ b = 0xF := by
  revert b
  decide

/-- The six sets of R77, by the fields that the decoder compares. -/
theorem decode_eq_unknown_iff (w : Word) : decode w = .unknown w ↔
    (opField w = 0x0 ∧ w ≠ 0x00E0 ∧ w ≠ 0x00EE) ∨ (opField w = 0x5 ∧ nField w ≠ 0) ∨
    (opField w = 0x8 ∧ nField w ∉ [0, 4, 5, 7]) ∨ (opField w = 0x9 ∧ nField w ≠ 0) ∨
    (opField w = 0xE ∧ kkField w ∉ [0x9E, 0xA1]) ∨
    (opField w = 0xF ∧ kkField w ∉ [0x07, 0x0A, 0x15, 0x18, 0x1E, 0x29, 0x33, 0x55, 0x65]) := by
  rw [← decodeF_eq_unknown, ← decodeE_eq_unknown, ← decode8_eq_unknown, ← decode0_eq_unknown]
  rcases nibble_cases (opField w) with h | h | h | h | h | h | h | h | h | h | h | h | h | h | h | h
  · simp [decode_of_op0 h, h]
  · simp [decode_of_op1 h, h]
  · simp [decode_of_op2 h, h]
  · simp [decode_of_op3 h, h]
  · simp [decode_of_op4 h, h]
  · simp [decode_of_op5 h, h]
  · simp [decode_of_op6 h, h]
  · simp [decode_of_op7 h, h]
  · simp [decode_of_op8 h, h]
  · simp [decode_of_op9 h, h]
  · simp [decode_of_opA h, h]
  · simp [decode_of_opB h, h]
  · simp [decode_of_opC h, h]
  · simp [decode_of_opD h, h]
  · simp [decode_of_opE h, h]
  · simp [decode_of_opF h, h]

/-- Settles O5: the sets by their fields are the sets by their numbers. -/
theorem unknownWordsAreTheListedSets : Obligations.UnknownWordsAreTheListedSets := by
  intro w
  rw [decode_eq_unknown_iff]
  simp only [← opField_toNat, ← nField_toNat, ← kkField_toNat, ← BitVec.toNat_inj, ne_eq, List.mem_cons, List.not_mem_nil,
    or_false]
  rfl

/-- Settles O1: the decoder evaluated on each word. -/
theorem sampleWordsDecode : Obligations.SampleWordsDecode := by
  unfold Obligations.SampleWordsDecode
  decide

end Sys2Proof
end

section
/-! One step of the core with the word at pc known: what it runs, that it always answers, and the runs of one and two steps that
the spec derives from it (spec/40_engine.md R93 to R105, spec/41_control_flow.md R119). -/

namespace Sys2Proof.Machine

/-! ### The step by the word at pc (R93, R94) -/

theorem fetchWord_of_le {s : State} (h : s.pc.toNat ≤ lastFetch) : s.fetchWord = some (s.mem.readWord s.pc.toNat) :=
  fetchWord_eq_some.2 ⟨h, rfl⟩

/-- A fetch outside memory raises its fatal error (R94, D8). -/
theorem cycle_of_no_fetch {s : State} (hfetch : s.fetchWord = none) : cycle s = .next (s.raise .fetchOutOfRange none) := by
  rw [cycle, hfetch]

theorem cycle_of_instr {s : State} {w : Word} {i : Instr} (hfetch : s.fetchWord = some w) (hdecode : decode w = .instr i) :
    cycle s = exec i s := by
  rw [cycle, hfetch]
  simp only [hdecode, Decoded.instr?]

theorem coreStep_of_waitKey {s : State} {x : RegIdx} (h : s.runState = .waitKey x) : coreStep s = .next s := by
  rw [coreStep, h]

/-- In RUNNING a step of the core is the instruction of the word at pc and the end of the step (R93, R98). -/
theorem coreStep_of_instr {s : State} {i : Instr} (hrun : s.runState = .running) (hpc : s.pc.toNat ≤ lastFetch)
    (hdecode : decode (s.mem.readWord s.pc.toNat) = .instr i) : coreStep s = onNext State.finishStep (exec i s) := by
  rw [coreStep_of_running hrun, cycle_of_instr (fetchWord_of_le hpc) hdecode]

/-- Settles O7: with nothing scheduled the step is the core's, which runs the decoded instruction and ends with the tick. -/
theorem stepRunsDecodedInstruction : Obligations.StepRunsDecodedInstruction := by
  intro s i hsched hrun hpc hdecode
  rw [step_of_no_schedule hsched, coreStep_of_instr hrun hpc hdecode]

/-- Settles O9: the fetch comes before any effect, and the fatal stop it raises is not ticked. -/
theorem fetchOutsideMemoryIsFatal : Obligations.FetchOutsideMemoryIsFatal := by
  intro s hsched hrun hpc
  rw [step_of_no_schedule hsched, coreStep_of_running hrun, cycle_of_no_fetch (fetchWord_eq_none.2 hpc)]
  rfl

/-! ### Scheduled host actions (R92, R93) -/

theorem step_of_schedule {s : State} {a : HostAction} {rest : List HostAction} (h : s.schedule = a :: rest) :
    step s = perform a (s.setSchedule rest) := by
  rw [step, nextAction, h]

theorem onNext_onNext (f g : State → State) (r : Result) : onNext g (onNext f r) = onNext (fun t => g (f t)) r := by
  cases r <;> rfl

/-- Settles O8: the step takes the first action of the schedule; `Step(rnd)` is a step of the core on the state with `rnd`. -/
theorem scheduledActionIsPerformedFirst : Obligations.ScheduledActionIsPerformedFirst := by
  refine ⟨fun s a rest => step_of_schedule, fun s rnd i hrun hpc hdecode => ?_⟩
  have hstep : coreStep (s.setRndIn (some rnd)) = onNext State.finishStep (exec i (s.setRndIn (some rnd))) :=
    coreStep_of_instr hrun hpc hdecode
  rw [perform, stepWith, hstep, onNext_onNext]
  rfl

/-! ### A core that is not HALTED always answers (R96, R99, R104) -/

theorem exec_answers (i : Instr) (s : State) : ∃ t, exec i s = .next t := by
  rcases exec_cases i s with ⟨c, -, h⟩ | ⟨x, -, h⟩ | ⟨t, h, -⟩
  · exact ⟨_, h⟩
  · exact ⟨_, h⟩
  · exact ⟨t, h⟩

theorem cycle_answers (s : State) : ∃ t, cycle s = .next t := by
  rcases cycle_cases s with ⟨-, h⟩ | ⟨w, -, -, h⟩ | ⟨w, i, -, -, h⟩
  · exact ⟨_, h⟩
  · exact ⟨_, h⟩
  · rw [h]
    exact exec_answers i s

theorem coreStep_answers {s : State} (h : ∀ c p w, s.runState ≠ .halted c p w) : ∃ t, coreStep s = .next t := by
  cases hrun : s.runState with
  | running =>
    obtain ⟨t, ht⟩ := cycle_answers s
    exact ⟨t.finishStep, by rw [coreStep_of_running hrun, ht, onNext_next]⟩
  | waitKey x => exact ⟨s, coreStep_of_waitKey hrun⟩
  | halted c p w => exact absurd hrun (h c p w)

/-- Settles O13: in RUNNING each of the three ways of a cycle answers, and in WAIT_KEY the step answers the same state. -/
theorem coreStepAlwaysAnswers : Obligations.CoreStepAlwaysAnswers := by
  intro s hsched hnot
  rw [step_of_no_schedule hsched]
  exact coreStep_answers hnot

/-! ### The self-jump (R105) -/

/-- A tick leaves timers that are 0 (R190). -/
theorem State.finishStep_of_zero_timers {s : State} (hdt : s.dt = 0) (hst : s.st = 0) : s.finishStep = s := by
  have hdt' : countDown s.dt = s.dt := by rw [hdt]; rfl
  have hst' : countDown s.st = s.st := by rw [hst]; rfl
  have htick : s.timerTick = s := by rw [timerTick, hdt', hst']
  by_cases hrun : s.runState = .running
  · rw [finishStep_of_running hrun, tickIfPerInstruction_eq, htick, ite_self]
  · exact finishStep_of_not_running hrun

/-- The word of a jump to an address inside memory, as a number: 0x1000 plus the address (R76). -/
theorem eq_encode_jp {w a : Word} (ha : a.toNat < memSize) (hw : w.toNat = 0x1000 + a.toNat) :
    w = encode (.jp (a.setWidth 12)) := by
  have haddr : (a.setWidth 12).toNat = a.toNat := by rw [BitVec.toNat_setWidth, Nat.mod_eq_of_lt ha]
  apply BitVec.eq_of_toNat_eq
  rw [encode, packAddr_eq_ofNat, haddr, BitVec.toNat_ofNat, hw]
  exact (Nat.mod_eq_of_lt (show 0x1000 + a.toNat < 65536 by omega)).symm

/-- A jump to pc itself changes nothing. -/
theorem exec_jp_self {s : State} (h : s.pc.toNat < memSize) : exec (.jp (s.pc.setWidth 12)) s = .next s := by
  have hpc : ((s.pc.setWidth 12).setWidth 16 : Word) = s.pc := by
    apply BitVec.eq_of_toNat_eq
    rw [BitVec.toNat_setWidth_of_le (by decide), BitVec.toNat_setWidth, Nat.mod_eq_of_lt h]
  rw [exec_jp, hpc]
  rfl

/-- Settles O54: the jump gives the state back, and the tick has nothing left to count. -/
theorem selfJumpIsAFixedPoint : Obligations.SelfJumpIsAFixedPoint := by
  intro s hsched hrun hpc hword hdt hst
  have hmem : s.pc.toNat < memSize := by simp only [memSize]; omega
  have hjp : s.mem.readWord s.pc.toNat = encode (.jp (s.pc.setWidth 12)) := eq_encode_jp hmem hword
  constructor
  · simp [State.endOfRun, hrun, hdt, hst, hmem, fetchWord_of_le hpc, hjp]
  · have hdecode : decode (s.mem.readWord s.pc.toNat) = .instr (.jp (s.pc.setWidth 12)) := by rw [hjp, decode_encode]
    rw [stepRunsDecodedInstruction s _ hsched hrun hpc hdecode, exec_jp_self hmem, onNext_next,
      State.finishStep_of_zero_timers hdt hst]

/-! ### A call to a return (R119) -/

/-- A step that calls: the pushed return address, the jump, and a tick of the timers (R112). -/
theorem step_call {s : State} {addr : Addr} (hsched : s.schedule = []) (hrun : s.runState = .running)
    (hpc : s.pc.toNat ≤ lastFetch) (hword : s.mem.readWord s.pc.toNat = encode (.call addr)) (hsp : s.sp.val < stackDepth) :
    ∃ d e, step s = .next { (s.push s.pc hsp).jump (addr.setWidth 16) with dt := d, st := e } := by
  have hdecode : decode (s.mem.readWord s.pc.toNat) = .instr (.call addr) := by rw [hword, decode_encode]
  obtain ⟨d, e, hfinish⟩ := finishStep_eq ((s.push s.pc hsp).jump (addr.setWidth 16))
  refine ⟨d, e, ?_⟩
  rw [stepRunsDecodedInstruction s _ hsched hrun hpc hdecode, exec_call_of_lt addr hsp, onNext_next, hfinish]

/-- A step that returns: the popped address plus 2, and a tick of the timers (R111). -/
theorem step_ret {s : State} (hsched : s.schedule = []) (hrun : s.runState = .running) (hpc : s.pc.toNat ≤ lastFetch)
    (hword : s.mem.readWord s.pc.toNat = encode .ret) (hsp : 0 < s.sp.val) :
    ∃ d e, step s = .next { (s.drop.jump (s.top hsp)).advance 2 with dt := d, st := e } := by
  have hdecode : decode (s.mem.readWord s.pc.toNat) = .instr .ret := by rw [hword, decode_encode]
  obtain ⟨d, e, hfinish⟩ := finishStep_eq ((s.drop.jump (s.top hsp)).advance 2)
  refine ⟨d, e, ?_⟩
  rw [stepRunsDecodedInstruction s _ hsched hrun hpc hdecode, exec_ret_of_pos hsp, onNext_next, hfinish]

/-- Settles O32: the call leaves its own address on top of the stack for the return at its target. -/
theorem callThenReturnRoundTrip : Obligations.CallThenReturnRoundTrip := by
  intro s addr hsched hrun hsp hpc hcall haddr hret
  obtain ⟨d, e, ht⟩ := step_call hsched hrun hpc hcall hsp
  let t : State := { (s.push s.pc hsp).jump (addr.setWidth 16) with dt := d, st := e }
  have htpc : t.pc.toNat = addr.toNat := BitVec.toNat_setWidth_of_le (by decide)
  obtain ⟨d', e', hu⟩ := step_ret (s := t) hsched hrun (htpc ▸ haddr) (htpc ▸ hret) (Nat.succ_pos _)
  have htop : t.top (Nat.succ_pos _) = s.pc := s.push_stack_sp s.pc hsp
  rw [htop] at hu
  exact ⟨t, _, ht, hu, rfl, rfl, fun _ hj => s.push_stack_other s.pc hsp hj⟩

/-! ### A placed word (log 24) -/

/-- Settles O58: what was placed is what is fetched, and outside the two bytes of the word memory reads as before. -/
theorem placedWordIsWhatRuns : Obligations.PlacedWordIsWhatRuns := by
  intro s w i hm hdecode t
  obtain ⟨hpc, hword⟩ := fetchWord_eq_some.1 (placeWord_fetch hm (tableWord 16 w))
  refine ⟨?runs, rfl, fun h => if_pos h, ?frame⟩
  case runs =>
    refine stepRunsDecodedInstruction t i rfl rfl hpc ?_
    rw [← hdecode]
    exact congrArg decode hword
  case frame =>
    intro a ha
    exact Memory.read_writeBytes_other (bs := [hiByte (tableWord 16 w), loByte (tableWord 16 w)]) hm
      (Nat.succ_le_succ (Nat.succ_le_succ hpc)) ha

end Sys2Proof.Machine
end

section
/-! What holds of every instruction: its fatal condition, the elements it writes, and the elements it does not read
(spec/10_state.md R24 to R35, spec/60_exceptions.md R221). -/

namespace Sys2Proof.Machine

/-! ### The instructions that can stop: what a next state of each is

Each is the fatal stop under its condition, or the completed instruction under the opposite one. -/

section
variable {s t : State}

theorem exec_ret_cases (h : exec .ret s = .next t) :
    (s.sp.val = 0 ∧ t = s.raise .stackUnderflow (some (encode .ret))) ∨
    ∃ hsp : 0 < s.sp.val, t = (s.drop.jump (s.top hsp)).advance 2 := by
  rcases Nat.eq_zero_or_pos s.sp.val with hsp | hsp
  · rw [exec_ret_of_empty hsp] at h
    exact .inl ⟨hsp, (Host.Outcome.next.inj h).symm⟩
  · rw [exec_ret_of_pos hsp] at h
    exact .inr ⟨hsp, (Host.Outcome.next.inj h).symm⟩

theorem exec_call_cases {addr : Addr} (h : exec (.call addr) s = .next t) :
    (s.sp.val = stackDepth ∧ t = s.raise .stackOverflow (some (encode (.call addr)))) ∨
    ∃ hsp : s.sp.val < stackDepth, t = (s.push s.pc hsp).jump (addr.setWidth 16) := by
  rcases (Nat.le_of_lt_succ s.sp.isLt).eq_or_lt with hsp | hsp
  · rw [exec_call_of_full addr hsp] at h
    exact .inl ⟨hsp, (Host.Outcome.next.inj h).symm⟩
  · rw [exec_call_of_lt addr hsp] at h
    exact .inr ⟨hsp, (Host.Outcome.next.inj h).symm⟩

theorem exec_ldB_cases {x : RegIdx} (h : exec (.ldB x) s = .next t) :
    (4095 < s.i.toNat + 2 ∧ t = s.raise .memoryOutOfRange (some (encode (.ldB x)))) ∨
    s.i.toNat + 2 ≤ 4095 ∧
      t = (s.writeMem (s.mem.writeBytes s.i.toNat (decimalDigits (s.readV x)))).advance 2 := by
  rcases Nat.lt_or_ge 4095 (s.i.toNat + 2) with hi | hi
  · rw [exec_ldB_of_outside x hi] at h
    exact .inl ⟨hi, (Host.Outcome.next.inj h).symm⟩
  · rw [exec_ldB_of_fits x hi] at h
    exact .inr ⟨hi, (Host.Outcome.next.inj h).symm⟩

theorem exec_ldMemVx_cases {x : RegIdx} (h : exec (.ldMemVx x) s = .next t) :
    (4095 < s.i.toNat + x.val ∧ t = s.raise .memoryOutOfRange (some (encode (.ldMemVx x)))) ∨
    s.i.toNat + x.val ≤ 4095 ∧
      t = ((s.writeMem (s.mem.writeBytes s.i.toNat (s.regsUpTo x))).writeI (s.iAfter x)).advance 2 := by
  rcases Nat.lt_or_ge 4095 (s.i.toNat + x.val) with hi | hi
  · rw [exec_ldMemVx_of_outside hi] at h
    exact .inl ⟨hi, (Host.Outcome.next.inj h).symm⟩
  · rw [exec_ldMemVx_of_fits hi] at h
    exact .inr ⟨hi, (Host.Outcome.next.inj h).symm⟩

theorem exec_ldVxMem_cases {x : RegIdx} (h : exec (.ldVxMem x) s = .next t) :
    (4095 < s.i.toNat + x.val ∧ t = s.raise .memoryOutOfRange (some (encode (.ldVxMem x)))) ∨
    s.i.toNat + x.val ≤ 4095 ∧ t = ((s.writeRegs (s.loadRegs (x.val + 1) s.v)).writeI (s.iAfter x)).advance 2 := by
  rcases Nat.lt_or_ge 4095 (s.i.toNat + x.val) with hi | hi
  · rw [exec_ldVxMem_of_outside hi] at h
    exact .inl ⟨hi, (Host.Outcome.next.inj h).symm⟩
  · rw [exec_ldVxMem_of_fits hi] at h
    exact .inr ⟨hi, (Host.Outcome.next.inj h).symm⟩

theorem exec_skp_cases {x : RegIdx} (h : exec (.skp x) s = .next t) :
    (15 < (s.readV x).toNat ∧ t = s.raise .keyIndexOutOfRange (some (encode (.skp x)))) ∨
    ∃ c, t = s.skipIf c := by
  rcases Nat.lt_or_ge 15 (s.readV x).toNat with hx | hx
  · rw [exec_skp_of_outside hx] at h
    exact .inl ⟨hx, (Host.Outcome.next.inj h).symm⟩
  · rw [exec_skp_of_lt (Nat.lt_succ_of_le hx)] at h
    exact .inr ⟨_, (Host.Outcome.next.inj h).symm⟩

theorem exec_sknp_cases {x : RegIdx} (h : exec (.sknp x) s = .next t) :
    (15 < (s.readV x).toNat ∧ t = s.raise .keyIndexOutOfRange (some (encode (.sknp x)))) ∨
    ∃ c, t = s.skipIf c := by
  rcases Nat.lt_or_ge 15 (s.readV x).toNat with hx | hx
  · rw [exec_sknp_of_outside hx] at h
    exact .inl ⟨hx, (Host.Outcome.next.inj h).symm⟩
  · rw [exec_sknp_of_lt (Nat.lt_succ_of_le hx)] at h
    exact .inr ⟨_, (Host.Outcome.next.inj h).symm⟩

/-- What `DXYN` draws: the framebuffer, and whether one of the sprite's cells was 1 (R172). -/
def State.drawn (s : State) (x y : RegIdx) (n : Nibble) : Framebuffer × Bool :=
  drawCells (s.spriteCells (s.readV x) (s.readV y) n.toNat) (s.fb, false)

/-- The state after a `DXYN` that completes: the flag, the framebuffer and pc (R172). -/
def State.draw (s : State) (x y : RegIdx) (n : Nibble) : State :=
  ((s.setFlag (s.drawn x y n).2).writeFb (s.drawn x y n).1).advance 2

/-- `DXYN` with its rows inside memory (R172). -/
theorem exec_drw_of_fits (x y : RegIdx) {n : Nibble} (h : n.toNat = 0 ∨ s.i.toNat + n.toNat - 1 ≤ 4095) :
    exec (.drw x y n) s = .next (s.draw x y n) :=
  if_pos (dataFits_iff.2 (by rw [dataAddr_zero, memSize]; omega))

/-- `DXYN` with a row outside memory (R172, D7). -/
theorem exec_drw_of_outside (x y : RegIdx) {n : Nibble} (hn : 1 ≤ n.toNat) (h : 4095 < s.i.toNat + n.toNat - 1) :
    exec (.drw x y n) s = .next (s.raise .memoryOutOfRange (some (encode (.drw x y n)))) :=
  if_neg (mt dataFits_iff.1 (by rw [dataAddr_zero, memSize]; omega))

theorem exec_drw_cases {x y : RegIdx} {n : Nibble} (h : exec (.drw x y n) s = .next t) :
    (1 ≤ n.toNat ∧ 4095 < s.i.toNat + n.toNat - 1 ∧ t = s.raise .memoryOutOfRange (some (encode (.drw x y n)))) ∨
    (n.toNat = 0 ∨ s.i.toNat + n.toNat - 1 ≤ 4095) ∧ t = s.draw x y n := by
  by_cases hi : n.toNat = 0 ∨ s.i.toNat + n.toNat - 1 ≤ 4095
  · rw [exec_drw_of_fits x y hi] at h
    exact .inr ⟨hi, (Host.Outcome.next.inj h).symm⟩
  · have hn : 1 ≤ n.toNat := by omega
    have hi : 4095 < s.i.toNat + n.toNat - 1 := by omega
    rw [exec_drw_of_outside x y hn hi] at h
    exact .inl ⟨hn, hi, (Host.Outcome.next.inj h).symm⟩

end

/-! ### The fatal causes (R221) -/

/-- Settles O12: by the instruction; one that cannot stop, or whose condition fails, leaves the run state RUNNING. -/
theorem fatalCausesFollowTheTable : Obligations.FatalCausesFollowTheTable := by
  intro i s t c p w hrun hexec hhalt
  cases i
  case ret =>
    rcases exec_ret_cases hexec with ⟨hsp, rfl⟩ | ⟨hsp, rfl⟩
    · obtain ⟨rfl, -, -⟩ := RunState.halted.inj hhalt
      exact .inr (.inl ⟨rfl, rfl, hsp⟩)
    · simp [hrun] at hhalt
  case call addr =>
    rcases exec_call_cases hexec with ⟨hsp, rfl⟩ | ⟨hsp, rfl⟩
    · obtain ⟨rfl, -, -⟩ := RunState.halted.inj hhalt
      exact .inl ⟨rfl, ⟨addr, rfl⟩, hsp⟩
    · simp [hrun] at hhalt
  case drw x y n =>
    rcases exec_drw_cases hexec with ⟨hn, hi, rfl⟩ | ⟨-, rfl⟩
    · obtain ⟨rfl, -, -⟩ := RunState.halted.inj hhalt
      exact .inr (.inr (.inl ⟨rfl, .inl ⟨x, y, n, rfl, hn, hi⟩⟩))
    · simp [State.draw, hrun] at hhalt
  case ldB x =>
    rcases exec_ldB_cases hexec with ⟨hi, rfl⟩ | ⟨-, rfl⟩
    · obtain ⟨rfl, -, -⟩ := RunState.halted.inj hhalt
      exact .inr (.inr (.inl ⟨rfl, .inr (.inl ⟨x, rfl, hi⟩)⟩))
    · simp [hrun] at hhalt
  case ldMemVx x =>
    rcases exec_ldMemVx_cases hexec with ⟨hi, rfl⟩ | ⟨-, rfl⟩
    · obtain ⟨rfl, -, -⟩ := RunState.halted.inj hhalt
      exact .inr (.inr (.inl ⟨rfl, .inr (.inr ⟨x, .inl rfl, hi⟩)⟩))
    · simp [hrun] at hhalt
  case ldVxMem x =>
    rcases exec_ldVxMem_cases hexec with ⟨hi, rfl⟩ | ⟨-, rfl⟩
    · obtain ⟨rfl, -, -⟩ := RunState.halted.inj hhalt
      exact .inr (.inr (.inl ⟨rfl, .inr (.inr ⟨x, .inr rfl, hi⟩)⟩))
    · simp [hrun] at hhalt
  case skp x =>
    rcases exec_skp_cases hexec with ⟨hx, rfl⟩ | ⟨c, rfl⟩
    · obtain ⟨rfl, -, -⟩ := RunState.halted.inj hhalt
      exact .inr (.inr (.inr ⟨rfl, x, .inl rfl, hx⟩))
    · simp [hrun] at hhalt
  case sknp x =>
    rcases exec_sknp_cases hexec with ⟨hx, rfl⟩ | ⟨c, rfl⟩
    · obtain ⟨rfl, -, -⟩ := RunState.halted.inj hhalt
      exact .inr (.inr (.inr ⟨rfl, x, .inr rfl, hx⟩))
    · simp [hrun] at hhalt
  all_goals
    obtain rfl := Host.Outcome.next.inj hexec
    simp [hrun] at hhalt

/-! ### The elements an instruction writes (R24, R35) -/

/-- Settles O50: by the instruction, whose whole next state is known; the instructions that can stop have two. -/
theorem instructionsWriteOnlyTheirElements : Obligations.InstructionsWriteOnlyTheirElements := by
  intro i s t hexec
  cases i
  case ret => rcases exec_ret_cases hexec with ⟨-, rfl⟩ | ⟨-, rfl⟩ <;> simp
  case call addr => rcases exec_call_cases hexec with ⟨-, rfl⟩ | ⟨-, rfl⟩ <;> simp
  case drw x y n => rcases exec_drw_cases hexec with ⟨-, -, rfl⟩ | ⟨-, rfl⟩ <;> simp [State.draw]
  case ldB x => rcases exec_ldB_cases hexec with ⟨-, rfl⟩ | ⟨-, rfl⟩ <;> simp
  case ldMemVx x => rcases exec_ldMemVx_cases hexec with ⟨-, rfl⟩ | ⟨-, rfl⟩ <;> simp
  case ldVxMem x => rcases exec_ldVxMem_cases hexec with ⟨-, rfl⟩ | ⟨-, rfl⟩ <;> simp
  case skp x => rcases exec_skp_cases hexec with ⟨-, rfl⟩ | ⟨c, rfl⟩ <;> simp
  case sknp x => rcases exec_sknp_cases hexec with ⟨-, rfl⟩ | ⟨c, rfl⟩ <;> simp
  all_goals
    obtain rfl := Host.Outcome.next.inj hexec
    simp

/-- An instruction whose only register write is to V[x] shows in VF only if x is VF. -/
theorem eq_vf_of_dest {s u t : State} {x : RegIdx} {b : Byte} (hu : u.v = s.v)
    (hexec : (.next ((u.writeV x b).advance 2) : Result) = .next t) (hvf : t.v[vf] ≠ s.v[vf]) : x = vf := by
  obtain rfl := Host.Outcome.next.inj hexec
  by_contra hx
  exact hvf ((u.readV_writeV_other b (Ne.symm hx)).trans (by rw [State.readV, hu]))

/-- A load of V0 to VX shows in VF only if it loads all sixteen registers (R155). -/
theorem eq_vf_of_ldVxMem {s t : State} {x : RegIdx} (hexec : exec (.ldVxMem x) s = .next t) (hvf : t.v[vf] ≠ s.v[vf]) :
    x = vf := by
  rcases exec_ldVxMem_cases hexec with ⟨-, rfl⟩ | ⟨-, rfl⟩
  · exact absurd rfl hvf
  · by_contra hx
    have hlt : ¬ vf ≤ x := fun hle => hx (Fin.le_antisymm (Fin.le_last x) hle)
    exact hvf ((loadRegs_upTo s x vf).trans (if_neg hlt))

/-- Settles O51: of the instructions that write a register, those without a flag write VF only as their destination. -/
theorem flagChangesOnlyByItsWriters : Obligations.FlagChangesOnlyByItsWriters := by
  intro i s t hexec hvf
  obtain ⟨-, hwriters, -⟩ := instructionsWriteOnlyTheirElements i s t hexec
  obtain ⟨x, y, kk, n, hi⟩ := hwriters fun h => hvf (by rw [h])
  refine ⟨x, y, kk, n, ?_⟩
  rcases hi with rfl | rfl | rfl | rfl | rfl | rfl | rfl | rfl | rfl | rfl
  · obtain rfl : x = vf := eq_vf_of_dest rfl hexec hvf
    simp
  · obtain rfl : x = vf := eq_vf_of_dest rfl hexec hvf
    simp
  · obtain rfl : x = vf := eq_vf_of_dest rfl hexec hvf
    simp
  · simp
  · simp
  · simp
  · obtain rfl : x = vf := eq_vf_of_dest (State.useRnd_v s) hexec hvf
    simp
  · simp
  · obtain rfl : x = vf := eq_vf_of_dest rfl hexec hvf
    simp
  · obtain rfl : x = vf := eq_vf_of_ldVxMem hexec hvf
    simp

/-! ### The elements an instruction does not read -/

/-- Other values for the elements that few instructions read: ST, the return stack, the keypad flags and the parameters. -/
structure Overlay where
  st : Byte → Byte := id
  stack : Vector Word 16 → Vector Word 16 := id
  keypad : Vector Bool 16 → Vector Bool 16 := id
  config : Config → Config := id

/-- The state with those other values. -/
def Overlay.on (o : Overlay) (s : State) : State :=
  { s with st := o.st s.st, stack := o.stack s.stack, keypad := o.keypad s.keypad, config := o.config s.config }

theorem Overlay.on_skipIf (o : Overlay) (s : State) (c : Bool) : o.on (s.skipIf c) = (o.on s).skipIf c := by
  cases c <;> rfl

theorem Overlay.on_useRnd (o : Overlay) (s : State) : o.on s.useRnd = (o.on s).useRnd := by
  unfold State.useRnd
  cases hr : s.rndIn
  · simp [on, hr]
  · simp [on, hr, State.setRndIn]

/-- `o` leaves the element that `i` reads or writes, of those it may change. -/
def Overlay.Apart (o : Overlay) : Instr → Prop
  | .ldStVx _ => o.st = id
  | .ret | .call _ => o.stack = id
  | .skp _ | .sknp _ => o.keypad = id
  | .drw _ _ _ => ∀ c, (o.config c).spriteWrap = c.spriteWrap
  | _ => True

theorem Overlay.on_loadRegs (o : Overlay) (s : State) (n : Nat) (v : Vector Byte 16) :
    (o.on s).loadRegs n v = s.loadRegs n v := by
  induction n generalizing v with
  | zero => rfl
  | succ n ih => exact ih _

/-- What a sprite draws depends on no parameter but the wrap mode (R172 to R174). -/
theorem Overlay.on_drawn {o : Overlay} (ho : ∀ c, (o.config c).spriteWrap = c.spriteWrap) (s : State) (x y : RegIdx)
    (n : Nibble) : (o.on s).drawn x y n = s.drawn x y n := by
  have hcells : (o.on s).spriteCells (s.readV x) (s.readV y) n.toNat = s.spriteCells (s.readV x) (s.readV y) n.toNat := by
    simp only [State.spriteCells, on, ho]
    rfl
  exact congrArg (drawCells · (s.fb, false)) hcells

/-- Two runs agree up to `f` when their next states do. -/
theorem eq_onNext {f : State → State} {q r : Result} {t : State} (hr : r = .next t) (hq : q = .next (f t)) :
    q = onNext f r := by
  rw [hr, hq, onNext_next]

/-- `DXYN` does the same on states for which it draws the same. -/
theorem exec_drw_overlay {o : Overlay} {s : State} {x y : RegIdx} {n : Nibble}
    (hdrawn : (o.on s).drawn x y n = s.drawn x y n) : exec (.drw x y n) (o.on s) = onNext o.on (exec (.drw x y n) s) := by
  have hdraw : (o.on s).draw x y n = o.on (s.draw x y n) := by
    rw [State.draw, hdrawn]
    rfl
  by_cases hi : n.toNat = 0 ∨ s.i.toNat + n.toNat - 1 ≤ 4095
  · exact eq_onNext (exec_drw_of_fits x y hi) (hdraw ▸ exec_drw_of_fits (s := o.on s) x y hi)
  · have hn : 1 ≤ n.toNat := by omega
    have hi : 4095 < s.i.toNat + n.toNat - 1 := by omega
    exact eq_onNext (exec_drw_of_outside x y hn hi) (exec_drw_of_outside (s := o.on s) x y hn hi)

/-- An instruction does the same whatever the elements that it does not read, and leaves them (R29, R31). -/
theorem exec_overlay {o : Overlay} {i : Instr} (ho : o.Apart i) (s : State) : exec i (o.on s) = onNext o.on (exec i s) := by
  cases i
  case seImm x kk => exact congrArg _ (o.on_skipIf s _).symm
  case sneImm x kk => exact congrArg _ (o.on_skipIf s _).symm
  case seReg x y => exact congrArg _ (o.on_skipIf s _).symm
  case sneReg x y => exact congrArg _ (o.on_skipIf s _).symm
  case rnd x kk =>
    rw [exec_rnd, ← o.on_useRnd]
    rfl
  case ldStVx x =>
    obtain ⟨st, stack, keypad, config⟩ := o
    obtain rfl : st = id := ho
    rfl
  case ret =>
    obtain ⟨st, stack, keypad, config⟩ := o
    obtain rfl : stack = id := ho
    rcases Nat.eq_zero_or_pos s.sp.val with hsp | hsp
    · exact eq_onNext (exec_ret_of_empty hsp) (exec_ret_of_empty (s := Overlay.on _ s) hsp)
    · exact eq_onNext (exec_ret_of_pos hsp) (exec_ret_of_pos (s := Overlay.on _ s) hsp)
  case call addr =>
    obtain ⟨st, stack, keypad, config⟩ := o
    obtain rfl : stack = id := ho
    rcases (Nat.le_of_lt_succ s.sp.isLt).eq_or_lt with hsp | hsp
    · exact eq_onNext (exec_call_of_full addr hsp) (exec_call_of_full (s := Overlay.on _ s) addr hsp)
    · exact eq_onNext (exec_call_of_lt addr hsp) (exec_call_of_lt (s := Overlay.on _ s) addr hsp)
  case skp x =>
    obtain ⟨st, stack, keypad, config⟩ := o
    obtain rfl : keypad = id := ho
    rcases Nat.lt_or_ge 15 (s.readV x).toNat with hx | hx
    · exact eq_onNext (exec_skp_of_outside hx) (exec_skp_of_outside (s := Overlay.on _ s) hx)
    · have hx := Nat.lt_succ_of_le hx
      exact eq_onNext (exec_skp_of_lt hx) (by rw [Overlay.on_skipIf]; exact exec_skp_of_lt (s := Overlay.on _ s) hx)
  case sknp x =>
    obtain ⟨st, stack, keypad, config⟩ := o
    obtain rfl : keypad = id := ho
    rcases Nat.lt_or_ge 15 (s.readV x).toNat with hx | hx
    · exact eq_onNext (exec_sknp_of_outside hx) (exec_sknp_of_outside (s := Overlay.on _ s) hx)
    · have hx := Nat.lt_succ_of_le hx
      exact eq_onNext (exec_sknp_of_lt hx) (by rw [Overlay.on_skipIf]; exact exec_sknp_of_lt (s := Overlay.on _ s) hx)
  case drw x y n => exact exec_drw_overlay (o.on_drawn ho s x y n)
  case ldB x =>
    rcases Nat.lt_or_ge 4095 (s.i.toNat + 2) with hi | hi
    · exact eq_onNext (exec_ldB_of_outside x hi) (exec_ldB_of_outside (s := o.on s) x hi)
    · exact eq_onNext (exec_ldB_of_fits x hi) (exec_ldB_of_fits (s := o.on s) x hi)
  case ldMemVx x =>
    rcases Nat.lt_or_ge 4095 (s.i.toNat + x.val) with hi | hi
    · exact eq_onNext (exec_ldMemVx_of_outside hi) (exec_ldMemVx_of_outside (s := o.on s) hi)
    · exact eq_onNext (exec_ldMemVx_of_fits hi) (exec_ldMemVx_of_fits (s := o.on s) hi)
  case ldVxMem x =>
    rcases Nat.lt_or_ge 4095 (s.i.toNat + x.val) with hi | hi
    · exact eq_onNext (exec_ldVxMem_of_outside hi) (exec_ldVxMem_of_outside (s := o.on s) hi)
    · refine eq_onNext (exec_ldVxMem_of_fits hi) ((exec_ldVxMem_of_fits (s := o.on s) hi).trans ?_)
      rw [o.on_loadRegs]
      rfl
  all_goals rfl

/-- Settles O52: what `FX18` does to ST, and the key skips to the keypad, no other instruction does. -/
theorem soundTimerAndKeypadAreUnread : Obligations.SoundTimerAndKeypadAreUnread := by
  intro i s
  constructor
  · intro b hi
    have hapart : Overlay.Apart { st := fun _ => b } i := by
      cases i
      case ldStVx x => exact absurd rfl (hi x)
      all_goals simp [Overlay.Apart]
    exact exec_overlay hapart s
  · intro k hi
    have hapart : Overlay.Apart { keypad := fun _ => k } i := by
      cases i
      case skp x => exact absurd rfl (hi x).1
      case sknp x => exact absurd rfl (hi x).2
      all_goals simp [Overlay.Apart]
    exact exec_overlay hapart s

/-! ### Stack entries at and above sp (R27) -/

/-- A return reads the top entry, which is below sp, and leaves the stack (R111). -/
theorem exec_ret_of_stack {s t : State} {k : Vector Word 16} (hk : ∀ j : Fin 16, j.val < s.sp.val → k[j] = s.stack[j])
    (hexec : exec .ret s = .next t) :
    ∃ l, exec .ret { s with stack := k } = .next { t with stack := l } ∧
      ∀ j : Fin 16, j.val < t.sp.val → l[j] = t.stack[j] := by
  rcases exec_ret_cases hexec with ⟨hsp, rfl⟩ | ⟨hsp, rfl⟩
  · exact ⟨k, exec_ret_of_empty (s := { s with stack := k }) hsp, hk⟩
  · have hlast : s.sp.val - 1 < 16 := by have := s.sp.isLt; omega
    have htop : State.top { s with stack := k } hsp = s.top hsp := hk ⟨s.sp.val - 1, hlast⟩ (Nat.sub_one_lt_of_lt hsp)
    refine ⟨k, (exec_ret_of_pos (s := { s with stack := k }) hsp).trans ?_, fun j hj => hk j (hj.trans_le (Nat.sub_le _ _))⟩
    rw [htop]
    rfl

/-- A call writes the entry at sp, which is then the only new one below sp (R112). -/
theorem exec_call_of_stack {s t : State} {k : Vector Word 16} {addr : Addr}
    (hk : ∀ j : Fin 16, j.val < s.sp.val → k[j] = s.stack[j]) (hexec : exec (.call addr) s = .next t) :
    ∃ l, exec (.call addr) { s with stack := k } = .next { t with stack := l } ∧
      ∀ j : Fin 16, j.val < t.sp.val → l[j] = t.stack[j] := by
  rcases exec_call_cases hexec with ⟨hsp, rfl⟩ | ⟨hsp, rfl⟩
  · exact ⟨k, exec_call_of_full (s := { s with stack := k }) addr hsp, hk⟩
  · refine ⟨k.set s.sp.val s.pc, exec_call_of_lt (s := { s with stack := k }) addr hsp, fun j hj => ?_⟩
    show (k.set s.sp.val s.pc)[j] = (s.push s.pc hsp).stack[j]
    rcases (Nat.le_of_lt_succ hj).eq_or_lt with hj | hj
    · simp [hj]
    · rw [State.push_stack_other s s.pc hsp hj.ne]
      exact (Vector.getElem_set_ne hsp j.isLt hj.ne').trans (hk j hj)

/-- Settles O53: only the return reads the stack and only the call writes it. -/
theorem staleStackEntriesAreUnobservable : Obligations.StaleStackEntriesAreUnobservable := by
  intro i s t k hk hexec
  by_cases hret : i = .ret
  · subst hret
    exact exec_ret_of_stack hk hexec
  by_cases hcall : ∃ addr, i = .call addr
  · obtain ⟨addr, rfl⟩ := hcall
    exact exec_call_of_stack hk hexec
  have hapart : Overlay.Apart { stack := fun _ => k } i := by
    cases i
    case ret => exact absurd rfl hret
    case call addr => exact absurd ⟨addr, rfl⟩ hcall
    all_goals simp [Overlay.Apart]
  obtain ⟨-, -, -, hstack, hsp, -⟩ := instructionsWriteOnlyTheirElements i s t hexec
  have hsp : t.sp = s.sp := not_ne_iff.1 fun h => (hsp h).elim hret hcall
  have hstack : t.stack = s.stack := not_ne_iff.1 fun h => hcall (hstack h)
  refine ⟨k, (exec_overlay hapart s).trans (by rw [hexec]; rfl), ?_⟩
  rw [hsp, hstack]
  exact hk

end Sys2Proof.Machine
end

section
/-! The actions of the host: what each answers, in which run state it is enabled, and which are refused (spec/40_engine.md R91,
R99, R100, R103, spec/45_timers_keypad.md R191 to R200, spec/70_reset_and_hazards.md R252). -/

namespace Sys2Proof.Machine

/-! ### What is refused (D20, D28) -/

/-- No step of the core ends in a refusal. -/
theorem coreStep_ne_refused (s : State) (r : Refusal) : coreStep s ≠ .refused r := by
  cases hrun : s.runState with
  | running =>
    obtain ⟨t, ht⟩ := coreStep_answers (s := s) (by simp [hrun])
    simp [ht]
  | waitKey x => simp [coreStep_of_waitKey hrun]
  | halted c p w => simp [coreStep_of_halted hrun]

theorem onNext_eq_refused {f : State → State} {q : Result} {r : Refusal} (h : onNext f q = .refused r) : q = .refused r := by
  cases q with
  | next u => cases h
  | fault _ => cases h
  | refused _ => exact h

/-- Settles O17: the two range checks come before the test of the run state, and no other action is refused. -/
theorem malformedActionsAreRefused : Obligations.MalformedActionsAreRefused := by
  intro a s
  cases a with
  | launch program =>
    by_cases h : program.length ≤ maxProgram
    · simp [HostAction.wellFormed, perform, launchProgram, h]
    · simp [HostAction.wellFormed, perform, launchProgram, h]
  | setKey code pressed =>
    by_cases h : code < numKeys
    · cases hrun : s.runState <;> simp [HostAction.wellFormed, perform, setKey, h, hrun]
    · simp [HostAction.wellFormed, perform, setKey, h]
  | keyPress code =>
    by_cases h : code < numKeys
    · cases hrun : s.runState <;> simp [HostAction.wellFormed, perform, pressKey, h, hrun]
    · simp [HostAction.wellFormed, perform, pressKey, h]
  | step rnd =>
    have hne (r : Refusal) : perform (.step rnd) s ≠ .refused r := fun h =>
      coreStep_ne_refused _ r (onNext_eq_refused h)
    simp [HostAction.wellFormed, hne]
  | cancel => cases hrun : s.runState <;> simp [HostAction.wellFormed, perform, cancelWait, hrun]
  | readFramebuffer => simp [HostAction.wellFormed, perform]
  | tick =>
    cases hmode : s.config.timerMode <;> cases hrun : s.runState <;>
      simp [HostAction.wellFormed, perform, hostTick, hmode, hrun]

/-! ### What is enabled (R91) -/

/-- `Step(rnd)` in a wait reports the wait again, and the byte is dropped (R99). -/
theorem perform_step_of_waitKey {s : State} {x : RegIdx} (rnd : Byte) (h : s.runState = .waitKey x) :
    perform (.step rnd) s = .next (s.setRndIn none) := by
  have hstep : coreStep (s.setRndIn (some rnd)) = .next (s.setRndIn (some rnd)) := coreStep_of_waitKey h
  rw [perform, stepWith, hstep]
  rfl

/-- `Step(rnd)` is enabled unless HALTED. -/
theorem perform_step_answers_iff {s : State} {rnd : Byte} :
    (∃ t, perform (.step rnd) s = .next t) ↔ ∀ c p w, s.runState ≠ .halted c p w := by
  constructor
  · rintro ⟨t, ht⟩ c p w hhalt
    obtain ⟨u, hu, -⟩ := onNext_eq_next ht
    have hfault : coreStep (s.setRndIn (some rnd)) = .fault (.halted c p w) := coreStep_of_halted hhalt
    exact nomatch hfault.symm.trans hu
  · intro h
    obtain ⟨t, ht⟩ := coreStep_answers (s := s.setRndIn (some rnd)) h
    exact ⟨t.setRndIn none, by rw [perform, stepWith, ht, onNext_next]⟩

/-- Settles O16: each action looks at the run state, `Tick` at the timer mode too. -/
theorem enabledActionsFollowTheTable : Obligations.EnabledActionsFollowTheTable := by
  refine ⟨fun a s hwf => ?_, fun s x rnd => perform_step_of_waitKey rnd⟩
  cases a with
  | launch program =>
    have h : program.length ≤ maxProgram := of_decide_eq_true hwf
    simp [perform, launchProgram, h]
  | step rnd =>
    rw [perform_step_answers_iff]
    cases hrun : s.runState <;> simp
  | setKey code pressed =>
    have h : code < numKeys := of_decide_eq_true hwf
    cases hrun : s.runState <;> simp [perform, setKey, h, hrun]
  | keyPress code =>
    have h : code < numKeys := of_decide_eq_true hwf
    cases hrun : s.runState <;> simp [perform, pressKey, h, hrun]
  | cancel => cases hrun : s.runState <;> simp [perform, cancelWait, hrun]
  | readFramebuffer => simp [perform]
  | tick => cases hmode : s.config.timerMode <;> cases hrun : s.runState <;> simp [perform, hostTick, hmode, hrun]

/-! ### SetKey, Cancel, Tick and ReadFramebuffer -/

theorem perform_setKey {s : State} (code : Fin 16) (pressed : Bool) (h : ∀ c p w, s.runState ≠ .halted c p w) :
    perform (.setKey code.val pressed) s = .next (s.writeKey code pressed) := by
  rw [perform, setKey, dif_pos code.isLt]
  cases hrun : s.runState with
  | running => rfl
  | waitKey x => rfl
  | halted c p w => exact absurd hrun (h c p w)

theorem perform_cancel {s : State} {x : RegIdx} (h : s.runState = .waitKey x) : perform .cancel s = .next s.cancel := by
  rw [perform, cancelWait, h]

theorem perform_tick {s : State} (hmode : s.config.timerMode = .externalTick) (h : ∀ c p w, s.runState ≠ .halted c p w) :
    perform .tick s = .next s.timerTick := by
  rw [perform, hostTick, hmode]
  cases hrun : s.runState with
  | running => rfl
  | waitKey x => rfl
  | halted c p w => exact absurd hrun (h c p w)

theorem perform_tick_of_perInstruction {s : State} (hmode : s.config.timerMode = .perInstruction) :
    perform .tick s = .fault (.notEnabled .tick) := by
  rw [perform, hostTick, hmode]

/-- A written key flag reads as written, and the others as before (R195). -/
theorem State.writeKey_keypad_same (s : State) (c : Fin 16) (pressed : Bool) : (s.writeKey c pressed).keypad[c] = pressed :=
  Vector.getElem_set_self c.isLt

theorem State.writeKey_keypad_other (s : State) {c d : Fin 16} (pressed : Bool) (h : d ≠ c) :
    (s.writeKey c pressed).keypad[d] = s.keypad[d] :=
  Vector.getElem_set_ne c.isLt d.isLt fun e => h (Fin.ext e.symm)

/-- Settles O18: the action is the write of one flag. -/
theorem setKeyWritesOneFlag : Obligations.SetKeyWritesOneFlag := fun s code pressed hrun =>
  ⟨_, perform_setKey code pressed hrun, s.writeKey_keypad_same code pressed, fun _ => s.writeKey_keypad_other pressed⟩

/-- Settles O19: the action raises its fatal error with the word at pc. -/
theorem cancelEndsTheRun : Obligations.CancelEndsTheRun := by
  intro s x hwait hpc
  rw [perform_cancel hwait, State.cancel, fetchWord_of_le hpc, State.raise]

/-- Settles O20: the action is one tick, in its mode. -/
theorem hostTickCountsDown : Obligations.HostTickCountsDown := fun s =>
  ⟨fun hmode hrun => ⟨_, _, perform_tick hmode hrun, countDown_toNat s.dt, countDown_toNat s.st⟩, perform_tick_of_perInstruction⟩

theorem exportFramebuffer_length (s : State) : s.exportFramebuffer.length = fbCells := by
  rw [State.exportFramebuffer, List.length_map, List.length_range]

theorem exportFramebuffer_getElem? (s : State) {k : Nat} (hk : k < fbCells) :
    s.exportFramebuffer[k]? = some (if s.fb.cell k then 1 else 0) := by
  rw [State.exportFramebuffer, List.getElem?_map, List.getElem?_range hk, Option.map_some]

/-- Settles O22: the export lists the cells in the order of their indices, and that of a pixel is below 2048. -/
theorem framebufferExportIsTheCells : Obligations.FramebufferExportIsTheCells := by
  refine fun s => ⟨rfl, exportFramebuffer_length s, fun px py => exportFramebuffer_getElem? s ?_⟩
  have hpx := px.isLt
  have hpy := py.isLt
  simp only [fbCells]
  omega

/-! ### Launch (R252) -/

theorem perform_launch_of_le {s : State} {program : List Byte} (h : program.length ≤ maxProgram) :
    perform (.launch program) s = .next (s.launch program) := by
  rw [perform, launchProgram, if_pos h]

theorem perform_launch_of_lt {s : State} {program : List Byte} (h : maxProgram < program.length) :
    perform (.launch program) s = .refused (.programTooLong program.length) := by
  rw [perform, launchProgram, if_neg h.not_ge]

/-- Settles O21: the program is written into a memory that is all zero, and it fits. -/
theorem launchLoadsTheProgram : Obligations.LaunchLoadsTheProgram := by
  refine fun s program => ⟨fun h => ?_, perform_launch_of_lt⟩
  have hfits : loadBase + program.length ≤ memSize := by simp only [loadBase, memSize]; omega
  exact ⟨_, perform_launch_of_le h, fun k hk => Memory.read_writeBytes_offset Memory.wf_nil hfits hk,
    fun a ha => (Memory.read_writeBytes_other Memory.wf_nil hfits ha).trans (Memory.read_nil a)⟩

/-! ### The key wait (R199, R235) -/

/-- Settles O15: by the action, of which `perform_cases` says what its next state is. -/
theorem waitEndsOnlyByKeyPressOrCancel : Obligations.WaitEndsOnlyByKeyPressOrCancel := by
  intro s x hwait
  refine ⟨fun hsched => (step_of_no_schedule hsched).trans (coreStep_of_waitKey hwait), fun a t ha => ?_⟩
  rcases perform_cases ha with
    ⟨program, rfl, -, rfl⟩ | ⟨b, u, rfl, -, -⟩ | ⟨code, pressed, hcode, rfl, rfl, -⟩ | ⟨code, y, hcode, rfl, -, -⟩ |
    ⟨-, rfl, -, rfl⟩ | ⟨rfl, rfl⟩ | ⟨rfl, hmode, rfl, -⟩
  · rfl
  · exact Host.Outcome.next.inj (ha.symm.trans (perform_step_of_waitKey b hwait))
  · refine ⟨rfl, fun c => ?_⟩
    split
    · next hc =>
      obtain rfl : c = ⟨code, hcode⟩ := Fin.ext hc
      exact s.writeKey_keypad_same _ pressed
    · next hc => exact s.writeKey_keypad_other pressed fun e => hc (congrArg Fin.val e)
  · obtain ⟨b, d, e, hpress, hb, hper, hext⟩ := keyWaitCompletesByKeyPress.2 s x ⟨code, hcode⟩ hwait
    obtain rfl := Host.Outcome.next.inj (hpress.symm.trans ha)
    have hx : (s.writeV x b).readV x = b := s.readV_writeV_same x b
    exact ⟨rfl, (congrArg BitVec.toNat hx).trans hb, fun _ hr => s.readV_writeV_other b hr, hper, hext⟩
  · rfl
  · rfl
  · exact ⟨rfl, hmode, countDown_toNat s.dt, countDown_toNat s.st⟩

end Sys2Proof.Machine
end

section
/-! The invariant of the machine: what each instruction does to pc and the stack, and that the core and the host keep it
(spec/10_state.md R34, spec/60_exceptions.md R220). -/

namespace Sys2Proof.Machine

/-! ### The invariant and its parts -/

/-- Settles O56: no byte is listed, no stack entry is in use, and the core is RUNNING. -/
theorem resetMeetsTheInvariant : Obligations.ResetMeetsTheInvariant :=
  ⟨Memory.reset_wf, by decide, fun _ hj => absurd hj (Nat.not_lt_zero _), trivial⟩

section
variable {s t : State}

/-- The invariant speaks of memory, pc, the stack in use and the run state alone. -/
theorem State.Inv.congr (hs : s.Inv) (hmem : t.mem = s.mem) (hpc : t.pc = s.pc) (hstack : t.stack = s.stack)
    (hsp : t.sp = s.sp) (hrun : t.runState = s.runState) : t.Inv := by
  have hfetch : t.fetchWord = s.fetchWord := fetchWord_congr hpc hmem
  obtain ⟨hm, hp, hk, hr⟩ := hs
  refine ⟨hmem ▸ hm, hpc ▸ hp, ?_, ?_⟩
  · simpa only [State.stackSound, hstack, hsp] using hk
  · simpa only [State.runSound, hrun, hfetch, hpc] using hr

/-- A fatal error that records the word at pc keeps the invariant (R220). -/
theorem State.Inv.raise (hs : s.Inv) {c : Cause} {w : Option Word} (hw : w = s.fetchWord)
    (hc : w = none ↔ c = .fetchOutOfRange) : (s.raise c w).Inv :=
  ⟨hs.mem, hs.pc, hs.stack, rfl, hw, hc⟩

/-- A waiting core stands where an instruction can be fetched (R32). -/
theorem State.Inv.fetch_of_waitKey (hs : s.Inv) {x : RegIdx} (hwait : s.runState = .waitKey x) :
    s.fetchWord = some (encode (.ldVxK x)) := by
  have hrun := hs.run
  rwa [State.runSound, hwait] at hrun

/-! ### pc and the stack after an instruction (R34 (d), (e)) -/

theorem pc_add_le {p k : Word} (hp : p.toNat ≤ lastFetch) (hk : k.toNat ≤ 0x100) : (p + k).toNat ≤ 0x10FE := by
  rw [BitVec.toNat_add]
  simp only [lastFetch] at hp
  omega

theorem skipIf_pc_le (hpc : s.pc.toNat ≤ lastFetch) (c : Bool) : (s.skipIf c).pc.toNat ≤ 0x10FE := by
  cases c
  · exact pc_add_le hpc (by decide)
  · exact pc_add_le hpc (by decide)

theorem addr_toNat_le (addr : Addr) : (addr.setWidth 16 : Word).toNat ≤ 0x10FE := by
  have haddr := addr.isLt
  rw [BitVec.toNat_setWidth_of_le (by decide)]
  omega

/-- pc after an instruction: the next word or the one after it, an address, an address plus V0, or 2 beyond a return address
(R97, R111 to R114). -/
theorem exec_pc_le {i : Instr} (hstack : s.stackSound) (hpc : s.pc.toNat ≤ lastFetch) (hexec : exec i s = .next t) :
    t.pc.toNat ≤ 0x10FE := by
  have hsame : s.pc.toNat ≤ 0x10FE := by simp only [lastFetch] at hpc; omega
  have hnext : (s.pc + 2).toNat ≤ 0x10FE := pc_add_le hpc (by decide)
  cases i
  case ret =>
    rcases exec_ret_cases hexec with ⟨-, rfl⟩ | ⟨hsp, rfl⟩
    · exact hsame
    · have hlast : s.sp.val - 1 < 16 := by have := s.sp.isLt; omega
      exact pc_add_le (hstack ⟨s.sp.val - 1, hlast⟩ (Nat.sub_one_lt_of_lt hsp)) (by decide)
  case call addr =>
    rcases exec_call_cases hexec with ⟨-, rfl⟩ | ⟨hsp, rfl⟩
    · exact hsame
    · exact addr_toNat_le addr
  case jp addr =>
    obtain rfl := Host.Outcome.next.inj hexec
    exact addr_toNat_le addr
  case jpV0 addr =>
    obtain rfl := Host.Outcome.next.inj hexec
    have haddr := addr.isLt
    have hv := (s.readV 0).isLt
    have htarget := jpV0_target_toNat addr (s.readV 0)
    simp only [State.jump_pc]
    omega
  case drw x y n =>
    rcases exec_drw_cases hexec with ⟨-, -, rfl⟩ | ⟨-, rfl⟩
    · exact hsame
    · exact hnext
  case ldB x =>
    rcases exec_ldB_cases hexec with ⟨-, rfl⟩ | ⟨-, rfl⟩
    · exact hsame
    · exact hnext
  case ldMemVx x =>
    rcases exec_ldMemVx_cases hexec with ⟨-, rfl⟩ | ⟨-, rfl⟩
    · exact hsame
    · exact hnext
  case ldVxMem x =>
    rcases exec_ldVxMem_cases hexec with ⟨-, rfl⟩ | ⟨-, rfl⟩
    · exact hsame
    · exact hnext
  case skp x =>
    rcases exec_skp_cases hexec with ⟨-, rfl⟩ | ⟨c, rfl⟩
    · exact hsame
    · exact skipIf_pc_le hpc c
  case sknp x =>
    rcases exec_sknp_cases hexec with ⟨-, rfl⟩ | ⟨c, rfl⟩
    · exact hsame
    · exact skipIf_pc_le hpc c
  case ldVxK x =>
    obtain rfl := Host.Outcome.next.inj hexec
    exact hsame
  case seImm | sneImm | seReg | sneReg =>
    obtain rfl := Host.Outcome.next.inj hexec
    exact skipIf_pc_le hpc _
  case rnd x kk =>
    obtain rfl := Host.Outcome.next.inj hexec
    simpa using hnext
  all_goals
    obtain rfl := Host.Outcome.next.inj hexec
    exact hnext

/-- A pushed return address is that of the call, which was fetched; no other entry comes into use (R111, R112). -/
theorem exec_stackSound {i : Instr} (hstack : s.stackSound) (hpc : s.pc.toNat ≤ lastFetch) (hexec : exec i s = .next t) :
    t.stackSound := by
  by_cases hret : i = .ret
  · subst hret
    rcases exec_ret_cases hexec with ⟨-, rfl⟩ | ⟨hsp, rfl⟩
    · exact hstack
    · exact fun j hj => hstack j (hj.trans_le (Nat.sub_le _ _))
  by_cases hcall : ∃ addr, i = .call addr
  · obtain ⟨addr, rfl⟩ := hcall
    rcases exec_call_cases hexec with ⟨-, rfl⟩ | ⟨hsp, rfl⟩
    · exact hstack
    · intro j hj
      show (s.push s.pc hsp).stack[j].toNat ≤ lastFetch
      rcases (Nat.le_of_lt_succ hj).eq_or_lt with hj | hj
      · simpa [hj] using hpc
      · rw [State.push_stack_other s s.pc hsp hj.ne]
        exact hstack j hj
  obtain ⟨-, -, -, hstack', hsp', -⟩ := instructionsWriteOnlyTheirElements i s t hexec
  have hsp : t.sp = s.sp := not_ne_iff.1 fun h => (hsp' h).elim hret hcall
  have hsame : t.stack = s.stack := not_ne_iff.1 fun h => hcall (hstack' h)
  simpa only [State.stackSound, hsp, hsame] using hstack

/-! ### Every step keeps the invariant -/

/-- An instruction that stands at pc keeps the invariant, whether it completes, suspends or is fatal. -/
theorem exec_inv {i : Instr} (hs : s.Inv) (hrun : s.runState = .running) (hfetch : s.fetchWord = some (encode i))
    (hexec : exec i s = .next t) : t.Inv := by
  have hpc : s.pc.toNat ≤ lastFetch := (fetchWord_eq_some.1 hfetch).1
  rcases exec_cases i s with ⟨c, hc, hraise⟩ | ⟨x, rfl, hwait⟩ | ⟨u, hdone, hcompletes⟩
  · obtain rfl := Host.Outcome.next.inj (hraise.symm.trans hexec)
    exact hs.raise hfetch.symm (by simp [hc])
  · obtain rfl := Host.Outcome.next.inj (hwait.symm.trans hexec)
    exact ⟨hs.mem, hs.pc, hs.stack, hfetch⟩
  · obtain rfl := Host.Outcome.next.inj (hdone.symm.trans hexec)
    refine ⟨exec_mem_wf hs.mem hexec, exec_pc_le hs.stack hpc hexec, exec_stackSound hs.stack hpc hexec, ?_⟩
    rw [State.runSound, hcompletes.runState, hrun]
    trivial

theorem finishStep_inv (hs : s.Inv) : s.finishStep.Inv := hs.congr (by simp) (by simp) (by simp) (by simp) (by simp)

/-- A step of the core keeps the invariant: it waits on, is fatal in fetch or decode, or runs the instruction at pc (R93, R227). -/
theorem coreStep_inv (hs : s.Inv) (hstep : coreStep s = .next t) : t.Inv := by
  rcases coreStep_cases hstep with
    ⟨x, -, rfl⟩ | ⟨hrun, ⟨hfetch, rfl⟩ | ⟨w, hfetch, -, rfl⟩ | ⟨w, i, u, hfetch, hdecode, hexec, rfl⟩⟩
  · exact hs
  · exact hs.raise hfetch.symm (by simp)
  · exact hs.raise hfetch.symm (by simp)
  · rw [← encode_of_decode hdecode] at hfetch
    exact finishStep_inv (exec_inv hs hrun hfetch hexec)

/-- The key press leaves pc after the `FX0A` it completes (R199). -/
theorem keyPress_inv (hs : s.Inv) {x : RegIdx} (hwait : s.runState = .waitKey x) (code : Fin 16) :
    (s.keyPress x code).Inv := by
  have hpc : s.pc.toNat ≤ lastFetch := (fetchWord_eq_some.1 (hs.fetch_of_waitKey hwait)).1
  have hdone : (((s.writeV x (BitVec.ofNat 8 code.val)).advance 2).setRun .running).Inv :=
    ⟨hs.mem, pc_add_le hpc (by decide), hs.stack, trivial⟩
  exact hdone.congr (by simp [State.keyPress]) (by simp [State.keyPress]) (by simp [State.keyPress]) (by simp [State.keyPress])
    (by simp [State.keyPress])

/-- An action of the host keeps the invariant. -/
theorem perform_inv {a : HostAction} (hs : s.Inv) (ha : perform a s = .next t) : t.Inv := by
  rcases perform_cases ha with
    ⟨program, -, hlen, rfl⟩ | ⟨b, u, -, hstep, rfl⟩ | ⟨code, pressed, hcode, -, rfl, -⟩ | ⟨code, x, hcode, -, hwait, rfl⟩ |
    ⟨x, -, hwait, rfl⟩ | ⟨-, rfl⟩ | ⟨-, -, rfl, -⟩
  · exact ⟨launched_mem_wf hlen, resetMeetsTheInvariant.pc, resetMeetsTheInvariant.stack, trivial⟩
  · have hrnd : (s.setRndIn (some b)).Inv := hs.congr rfl rfl rfl rfl rfl
    exact (coreStep_inv hrnd hstep).congr rfl rfl rfl rfl rfl
  · exact hs.congr rfl rfl rfl rfl rfl
  · exact keyPress_inv hs hwait ⟨code, hcode⟩
  · exact hs.raise rfl (by simp [hs.fetch_of_waitKey hwait])
  · exact hs
  · exact hs.congr rfl rfl rfl rfl rfl

end

/-- Settles O55: the step is the core's, or the first scheduled action on the state without it. -/
theorem everyStepKeepsTheInvariant : Obligations.EveryStepKeepsTheInvariant := by
  intro s t hs hstep
  cases hsched : s.schedule with
  | nil => exact coreStep_inv hs ((step_of_no_schedule hsched).symm.trans hstep)
  | cons a rest =>
    have hrest : (s.setSchedule rest).Inv := hs.congr rfl rfl rfl rfl rfl
    exact perform_inv hrest ((step_of_schedule hsched).symm.trans hstep)

end Sys2Proof.Machine
end

section
/-! The tick over all instructions, in either timer mode (spec/40_engine.md R98, spec/45_timers_keypad.md R190, R191). -/

namespace Sys2Proof.Machine

/-! ### The timers after an instruction, before the tick -/

/-- DT after the instruction's own write (R193). -/
def dtWritten (i : Instr) (s : State) : Byte := match i with | .ldDtVx x => s.v[x] | _ => s.dt

/-- ST after the instruction's own write (R194). -/
def stWritten (i : Instr) (s : State) : Byte := match i with | .ldStVx x => s.v[x] | _ => s.st

/-- An instruction leaves DT as its own write does. -/
theorem exec_dt {i : Instr} {s t : State} (hexec : exec i s = .next t) : t.dt = dtWritten i s := by
  obtain ⟨-, -, -, -, -, hdt, -⟩ := instructionsWriteOnlyTheirElements i s t hexec
  cases i
  case ldDtVx x =>
    obtain rfl := Host.Outcome.next.inj hexec
    rfl
  all_goals exact not_ne_iff.1 fun h => (hdt h).elim nofun

/-- An instruction leaves ST as its own write does. -/
theorem exec_st {i : Instr} {s t : State} (hexec : exec i s = .next t) : t.st = stWritten i s := by
  obtain ⟨-, -, -, -, -, -, hst, -⟩ := instructionsWriteOnlyTheirElements i s t hexec
  cases i
  case ldStVx x =>
    obtain rfl := Host.Outcome.next.inj hexec
    rfl
  all_goals exact not_ne_iff.1 fun h => (hst h).elim nofun

/-- An instruction that suspends or halts a running core writes no timer (R198, R220). -/
theorem exec_timers_of_not_running {i : Instr} {s t : State} (hrun : s.runState = .running) (hexec : exec i s = .next t)
    (hstop : t.runState ≠ .running) : t.dt = s.dt ∧ t.st = s.st := by
  rcases exec_cases i s with ⟨c, -, hraise⟩ | ⟨x, -, hwait⟩ | ⟨u, hdone, hcompletes⟩
  · obtain rfl := Host.Outcome.next.inj (hraise.symm.trans hexec)
    exact ⟨rfl, rfl⟩
  · obtain rfl := Host.Outcome.next.inj (hwait.symm.trans hexec)
    exact ⟨rfl, rfl⟩
  · obtain rfl := Host.Outcome.next.inj (hdone.symm.trans hexec)
    exact absurd (hcompletes.runState.trans hrun) hstop

theorem exec_config {i : Instr} {s t : State} (hexec : exec i s = .next t) : t.config = s.config := by
  obtain ⟨-, -, -, -, -, -, -, -, -, -, -, hconfig, -⟩ := instructionsWriteOnlyTheirElements i s t hexec
  exact hconfig

/-! ### The tick, which ends the step (R98, R190) -/

/-- In `external_tick` mode the end of a step does nothing (R191). -/
theorem State.finishStep_of_externalTick {s : State} (hmode : s.config.timerMode = .externalTick) : s.finishStep = s := by
  by_cases hrun : s.runState = .running
  · rw [finishStep_of_running hrun, tickIfPerInstruction_of_externalTick hmode]
  · exact finishStep_of_not_running hrun

/-- Settles O48: the step is the instruction, whose own write is known, and then the tick, which only a running core takes. -/
theorem everyCompletedStepTicksOnce : Obligations.EveryCompletedStepTicksOnce := by
  intro s t i hsched hrun hpc hdecode hstep d e
  rw [stepRunsDecodedInstruction s i hsched hrun hpc hdecode] at hstep
  obtain ⟨u, hexec, rfl⟩ := onNext_eq_next hstep
  have hd : u.dt = d := exec_dt hexec
  have he : u.st = e := exec_st hexec
  have hconfig : u.config = s.config := exec_config hexec
  rw [State.finishStep_runState, ← hd, ← he, ← hconfig]
  refine ⟨fun hrun hmode => ?per, fun hrun hmode => ?ext, fun hstop => ?stop⟩
  case per => exact ⟨State.finishStep_dt_toNat hrun hmode, State.finishStep_st_toNat hrun hmode⟩
  case ext =>
    rw [State.finishStep_of_externalTick hmode]
    exact ⟨rfl, rfl⟩
  case stop =>
    rw [State.finishStep_of_not_running hstop]
    exact exec_timers_of_not_running hrun hexec hstop

/-! ### One mode by the other (R191) -/

/-- The same machine in `external_tick` mode. -/
def externally : Overlay where
  config c := { c with timerMode := .externalTick }

/-- No instruction reads the timer mode. -/
theorem exec_externally (i : Instr) (s : State) : exec i (externally.on s) = onNext externally.on (exec i s) := by
  apply exec_overlay
  cases i
  case drw x y n => exact fun _ => rfl
  all_goals simp [Overlay.Apart, externally]

/-- Settles O49: both modes run the same instruction, and the one tick comes from the step or from the host. -/
theorem externalTickCoversPerInstruction : Obligations.ExternalTickCoversPerInstruction := by
  intro s t hsched hrun hmode hstep hdone
  rw [step_of_no_schedule hsched] at hstep
  rcases coreStep_cases hstep with
    ⟨x, hwait, rfl⟩ | ⟨-, ⟨-, rfl⟩ | ⟨w, -, -, rfl⟩ | ⟨w, i, u, hfetch, hdecode, hexec, rfl⟩⟩
  · exact nomatch hrun.symm.trans hwait
  · exact nomatch hdone
  · exact nomatch hdone
  rw [State.finishStep_runState] at hdone
  obtain ⟨hpc, rfl⟩ := fetchWord_eq_some.1 hfetch
  have hconfig : u.config = s.config := exec_config hexec
  have hext : step (externally.on s) = .next (externally.on u) := by
    rw [stepRunsDecodedInstruction (externally.on s) i hsched hrun hpc hdecode, exec_externally, hexec, onNext_next, onNext_next,
      State.finishStep_of_externalTick rfl]
  have htick : perform .tick (externally.on u) = .next (externally.on u).timerTick :=
    perform_tick rfl fun c p w hhalt => nomatch hdone.symm.trans hhalt
  refine ⟨_, _, hext, htick, ?_⟩
  rw [State.finishStep_of_perInstruction hdone (hconfig ▸ hmode), ← hconfig]
  rfl

end Sys2Proof.Machine
end

section
/-! Stores into the instructions to come (spec/20_memory.md R60). -/

namespace Sys2Proof.Machine

/-- A fetch reads the two bytes at its address, whatever stored them (R50, R60). -/
theorem fetchWord_at (s : State) {p : Word} (hp : p.toNat ≤ lastFetch) :
    { s with pc := p }.fetchWord = some (wordOfBytes (s.mem.read p.toNat) (s.mem.read (p.toNat + 1))) :=
  fetchWord_of_le hp

/-- Settles O39: a fetch reads memory as the store left it, and what the store left at each address is known. -/
theorem storeIsSeenByNextFetch : Obligations.StoreIsSeenByNextFetch := by
  intro s x hm stored digit
  constructor
  · intro h
    have hstored (a : Nat) : stored a ((s.mem.writeBytes s.i.toNat (s.regsUpTo x)).read a) := by
      refine ⟨?_, fun ha => read_writeBytes_regsUpTo_other hm h ha⟩
      rintro j hj rfl
      exact read_writeBytes_regsUpTo hm h hj
    exact ⟨_, exec_ldMemVx_of_fits h, rfl, fun p hp => ⟨_, _, fetchWord_at _ hp, hstored _, hstored _⟩⟩
  · intro h
    obtain ⟨hundreds, tens, units⟩ := Memory.read_writeBytes_decimalDigits hm h s.v[x]
    have hdigit (a : Nat) : digit a ((s.mem.writeBytes s.i.toNat (decimalDigits s.v[x])).read a) := by
      refine ⟨?_, ?_, ?_, fun ha => Memory.read_writeBytes_other hm (decimalDigits_fits h _) ha⟩
      · rintro rfl
        exact hundreds
      · rintro rfl
        exact tens
      · rintro rfl
        exact units
    exact ⟨_, exec_ldB_of_fits x h, rfl, fun p hp => ⟨_, _, fetchWord_at _ hp, hdigit _, hdigit _⟩⟩

end Sys2Proof.Machine
end

section
/-! Drawing a sprite: the cells that it flips, the collision flag, drawing twice, and the two wrap modes
(spec/44_display.md R172 to R175). -/

namespace Sys2Proof.Machine

/-! ### The cells and the flag of one drawing (R172) -/

/-- A sprite has at most 15 rows, so its cells are all different. -/
theorem spriteCells_nodup_of_nibble (s : State) (bx bY : Byte) (n : Nibble) : (s.spriteCells bx bY n.toNat).Nodup :=
  spriteCells_nodup (Nat.le_of_lt_succ n.isLt)

/-- Drawing flips the cells of the sprite and no other. -/
theorem drawn_cell (s : State) (x y : RegIdx) (n : Nibble) {k : Nat} (hk : k < fbCells) :
    (s.drawn x y n).1.cell k = (s.fb.cell k ^^ decide (k ∈ s.spriteCells (s.readV x) (s.readV y) n.toNat)) :=
  cell_drawCells (spriteCells_nodup_of_nibble s _ _ n) spriteCells_lt s.fb false hk

/-- Drawing collides when a cell of the sprite was 1. -/
theorem drawn_hit (s : State) (x y : RegIdx) (n : Nibble) :
    (s.drawn x y n).2 = true ↔ ∃ k ∈ s.spriteCells (s.readV x) (s.readV y) n.toNat, s.fb.cell k = true := by
  rw [State.drawn, hit_drawCells (spriteCells_nodup_of_nibble s _ _ n) spriteCells_lt, Bool.false_or, List.any_eq_true]

theorem drawn_cell_ne_iff (s : State) (x y : RegIdx) (n : Nibble) {k : Nat} (hk : k < fbCells) :
    (s.drawn x y n).1.cell k ≠ s.fb.cell k ↔ k ∈ s.spriteCells (s.readV x) (s.readV y) n.toNat := by
  rw [drawn_cell s x y n hk]
  cases s.fb.cell k <;> simp

theorem encode_drw_eq_ofNat (x y : RegIdx) (n : Nibble) :
    encode (.drw x y n) = BitVec.ofNat 16 (0xD000 + 256 * x.val + 16 * y.val + n.toNat) :=
  packRegs_eq_ofNat 0xD x y n

/-- Settles O41: the sprite's cells are those of its set bits, of which each is drawn once. -/
theorem drawSpriteFlipsAndCollides : Obligations.DrawSpriteFlipsAndCollides := by
  intro s x y n lit cell
  have hmem (k : Nat) : k ∈ s.spriteCells (s.readV x) (s.readV y) n.toNat ↔
      ∃ r < n.toNat, ∃ c < 8, lit r c ∧ cell r c = k := mem_spriteCells
  constructor
  · intro h
    refine ⟨_, _, exec_drw_of_fits x y h, fun k hk => (drawn_cell_ne_iff s x y n hk).trans (hmem k), ?_⟩
    cases hhit : (s.drawn x y n).2 with
    | true =>
      obtain ⟨k, hk, hcell⟩ := (drawn_hit s x y n).1 hhit
      obtain ⟨r, hr, c, hc, hlit, rfl⟩ := (hmem k).1 hk
      exact .inl ⟨rfl, r, hr, c, hc, hlit, hcell⟩
    | false =>
      refine .inr ⟨rfl, fun r hr c hc hlit => ?_⟩
      by_contra hcell
      have hk := (hmem (cell r c)).2 ⟨r, hr, c, hc, hlit, rfl⟩
      have hhit' := (drawn_hit s x y n).2 ⟨_, hk, eq_true_of_ne_false hcell⟩
      exact absurd (hhit.symm.trans hhit') (by decide)
  · intro hn h
    rw [exec_drw_of_outside x y hn h, encode_drw_eq_ofNat, State.raise]

/-! ### Drawing twice (R172 (g)) -/

/-- With neither coordinate in VF, a second drawing addresses the same cells. -/
theorem spriteCells_draw (s : State) {x y : RegIdx} (n : Nibble) (hx : x ≠ vf) (hy : y ≠ vf) :
    (s.draw x y n).spriteCells ((s.draw x y n).readV x) ((s.draw x y n).readV y) n.toNat =
      s.spriteCells (s.readV x) (s.readV y) n.toNat := by
  have hreadX : (s.draw x y n).readV x = s.readV x := s.readV_setFlag_other _ hx
  have hreadY : (s.draw x y n).readV y = s.readV y := s.readV_setFlag_other _ hy
  rw [hreadX, hreadY]
  rfl

/-- Flipping the same cells twice restores the framebuffer. -/
theorem draw_draw_fb (s : State) {x y : RegIdx} (n : Nibble) (hx : x ≠ vf) (hy : y ≠ vf) :
    ((s.draw x y n).draw x y n).fb = s.fb := by
  apply Framebuffer.ext_cells
  intro k hk
  have hsecond := drawn_cell (s.draw x y n) x y n hk
  have hfirst : (s.draw x y n).fb.cell k = _ := drawn_cell s x y n hk
  rw [spriteCells_draw s n hx hy, hfirst, Bool.xor_assoc, Bool.xor_self, Bool.xor_false] at hsecond
  exact hsecond

theorem draw_vf_eq_one (s : State) (x y : RegIdx) (n : Nibble) : (s.draw x y n).v[vf] = 1 ↔ (s.drawn x y n).2 = true := by
  have hvf : (s.draw x y n).v[vf] = flagByte (s.drawn x y n).2 := s.readV_setFlag_vf _
  rw [hvf]
  cases (s.drawn x y n).2 <;> decide

theorem draw_vf_eq_zero (s : State) (x y : RegIdx) (n : Nibble) : (s.draw x y n).v[vf] = 0 ↔ (s.drawn x y n).2 = false := by
  have hvf : (s.draw x y n).v[vf] = flagByte (s.drawn x y n).2 := s.readV_setFlag_vf _
  rw [hvf]
  cases (s.drawn x y n).2 <;> decide

/-- After a drawing without a collision every cell of the sprite is 1. -/
theorem drawn_cell_of_no_hit {s : State} {x y : RegIdx} {n : Nibble} (h : (s.drawn x y n).2 = false) {k : Nat}
    (hk : k ∈ s.spriteCells (s.readV x) (s.readV y) n.toNat) : (s.drawn x y n).1.cell k = true := by
  have hcell : s.fb.cell k = false := by
    by_contra hcell
    have hhit := (drawn_hit s x y n).2 ⟨k, hk, eq_true_of_ne_false hcell⟩
    exact absurd (h.symm.trans hhit) (by decide)
  rw [drawn_cell s x y n (spriteCells_lt k hk), hcell, decide_eq_true hk]
  rfl

/-- A byte is not 0 when one of its columns is set. -/
theorem byte_ne_zero_iff (b : Byte) : b ≠ 0 ↔ ∃ c < 8, b.getLsbD (7 - c) = true := by
  constructor
  · intro hb
    by_contra hnone
    refine hb (BitVec.eq_of_getLsbD_eq fun j hj => ?_)
    have hcolumn : ¬ b.getLsbD (7 - (7 - j)) = true := fun h => hnone ⟨7 - j, by omega, h⟩
    rw [show 7 - (7 - j) = j by omega] at hcolumn
    simpa using hcolumn
  · rintro ⟨c, -, hset⟩ rfl
    simp at hset

/-- A sprite addresses a cell when one of its rows is not 0. -/
theorem exists_spriteCell_iff (s : State) (bx bY : Byte) (n : Nat) :
    (∃ k, k ∈ s.spriteCells bx bY n) ↔ ∃ r < n, s.mem.read (s.i.toNat + r) ≠ 0 := by
  constructor
  · rintro ⟨k, hk⟩
    obtain ⟨r, hr, c, hc, hlit, -⟩ := mem_spriteCells.1 hk
    exact ⟨r, hr, (byte_ne_zero_iff _).2 ⟨c, hc, hlit⟩⟩
  · rintro ⟨r, hr, hrow⟩
    obtain ⟨c, hc, hlit⟩ := (byte_ne_zero_iff _).1 hrow
    exact ⟨_, mem_spriteCells.2 ⟨r, hr, c, hc, hlit, rfl⟩⟩

/-- A second drawing after one without a collision meets every cell of the sprite as 1. -/
theorem draw_drawn_hit_iff {s : State} {x y : RegIdx} {n : Nibble} (hx : x ≠ vf) (hy : y ≠ vf)
    (h : (s.drawn x y n).2 = false) :
    ((s.draw x y n).drawn x y n).2 = true ↔ ∃ r < n.toNat, s.mem.read (s.i.toNat + r) ≠ 0 := by
  rw [drawn_hit, spriteCells_draw s n hx hy, ← exists_spriteCell_iff s (s.readV x) (s.readV y)]
  exact exists_congr fun k => and_iff_left_of_imp fun hk => drawn_cell_of_no_hit h hk

/-- Settles O42: both draws are in memory and address the same cells. -/
theorem drawTwiceErases : Obligations.DrawTwiceErases := by
  intro s x y n hx hy h
  have hfits : n.toNat = 0 ∨ s.i.toNat + n.toNat - 1 ≤ 4095 := by omega
  refine ⟨s.draw x y n, (s.draw x y n).draw x y n, exec_drw_of_fits x y hfits, exec_drw_of_fits x y hfits,
    draw_draw_fb s n hx hy, fun hvf => ?_⟩
  exact (draw_vf_eq_one _ x y n).trans (draw_drawn_hit_iff hx hy ((draw_vf_eq_zero s x y n).1 hvf))

/-! ### The two wrap modes (R173, R174) -/

/-- A pixel that does not leave its row has the same cell in both modes. -/
theorem spriteCell_linear_eq {bx bY r c : Nat} (h : bx + c < 64) :
    spriteCell .linear bx bY r c = spriteCell .perAxis bx bY r c := by
  simp only [spriteCell]
  omega

/-- The parameters `c` but for the linear wrap mode, on any state. -/
def Overlay.linear (c : Config) : Overlay where
  config _ := { c with spriteWrap := .linear }

/-- A sprite that starts at column 56 or less addresses the same cells in both modes. -/
theorem spriteCells_linear_eq {s : State} (c : Config) (hs : s.config.spriteWrap = .perAxis) {bx : Byte}
    (hbx : bx.toNat ≤ 56) (bY : Byte) (n : Nat) : ((Overlay.linear c).on s).spriteCells bx bY n = s.spriteCells bx bY n := by
  unfold State.spriteCells
  rw [hs]
  refine congrArg (List.flatMap · (List.range n)) (funext fun r => List.map_congr_left fun column hcolumn => ?_)
  have hlt : column < 8 := (mem_setColumns.1 hcolumn).1
  exact spriteCell_linear_eq (by omega)

/-- From column 56 or less both modes draw the same (R174). -/
theorem drawn_linear_eq {s : State} (c : Config) (hs : s.config.spriteWrap = .perAxis) {x : RegIdx}
    (hx : (s.readV x).toNat ≤ 56) (y : RegIdx) (n : Nibble) : ((Overlay.linear c).on s).drawn x y n = s.drawn x y n :=
  congrArg (drawCells · (s.fb, false)) (spriteCells_linear_eq c hs hx (s.readV y) n.toNat)

/-- Settles O43: the two states draw the same, so the instruction does the same on them. -/
theorem wrapModesAgreeInsideTheRow : Obligations.WrapModesAgreeInsideTheRow := by
  intro s x y n hx
  have hdrawn := drawn_linear_eq (s := { s with config := { s.config with spriteWrap := .perAxis } }) s.config rfl hx y n
  have hexec := exec_drw_overlay hdrawn
  exact hexec

end Sys2Proof.Machine
end
